-- ==== Sys2Proof/Word.lean ====
section
/-!
DEFINITION. The word and the names of the eight general registers (00_scope.md R8, R9; 10_state.md R21).
-/

namespace Sys2Proof

/-- A word: 16 bits, the unit of addressing, of storage and of every instruction (R5 `XLEN`, R8, R9, R14). -/
abbrev Word := BitVec 16

/-- The eight general registers, by number (R21). `r1` is also called `ra`, `r7` is also called `sp` (R23, R24). -/
inductive Reg
  | r0 | r1 | r2 | r3 | r4 | r5 | r6 | r7
  deriving DecidableEq, Repr

end Sys2Proof
end

