-- ==== Sys2Proof/Syntax.lean ====
section
/-!
DEFINITION. The instructions: one constructor per row of spec/opcode_table.json (30_encoding.md R89 to R91, R96).
Field names are positions (C15): `rd` is bits 15:13, `rs` bits 12:10, `rt` bits 9:7 (R82, R83).
-/

namespace Sys2Proof

/-- One instruction, or one reserved word of R90 or R91. -/
inductive Instr
  /-- `call IMM` (R110) -/
  | call (imm : BitVec 11)
  /-- `ret` (R111) -/
  | ret
  /-- `exit` (R112) -/
  | exit
  /-- `add rX, rY, rZ` (R122) -/
  | add (rd rs rt : Reg)
  /-- `sub rX, rY, rZ` (R123) -/
  | sub (rd rs rt : Reg)
  /-- `mul rX, rY, rZ` (R124) -/
  | mul (rd rs rt : Reg)
  /-- `div rX, rY, rZ` (R125) -/
  | div (rd rs rt : Reg)
  /-- `pow rX, rY, rZ` (R126) -/
  | pow (rd rs rt : Reg)
  /-- `mod rX, rY, rZ` (R127) -/
  | mod (rd rs rt : Reg)
  /-- `and rX, rY, rZ` (R128) -/
  | and (rd rs rt : Reg)
  /-- `or rX, rY, rZ` (R129) -/
  | or (rd rs rt : Reg)
  /-- `xor rX, rY, rZ` (R130) -/
  | xor (rd rs rt : Reg)
  /-- `xnor rX, rY, rZ` (R131) -/
  | xnor (rd rs rt : Reg)
  /-- `ls rX, rY, rZ` (R132) -/
  | ls (rd rs rt : Reg)
  /-- `rs rX, rY, rZ` (R133) -/
  | rs (rd rs rt : Reg)
  /-- `lr rX, rY, rZ` (R134) -/
  | lr (rd rs rt : Reg)
  /-- `rr rX, rY, rZ` (R135) -/
  | rr (rd rs rt : Reg)
  /-- `stw rX, IMM(rY)` (R141) -/
  | stw (rd rs : Reg) (imm : BitVec 6)
  /-- `ldw rX, IMM(rY)` (R142) -/
  | ldw (rd rs : Reg) (imm : BitVec 6)
  /-- `beq rX, rY, LABEL` (R151) -/
  | beq (rd rs : Reg) (imm : BitVec 6)
  /-- `bne rX, rY, LABEL` (R152) -/
  | bne (rd rs : Reg) (imm : BitVec 6)
  /-- `bgt rX, rY, LABEL` (R153) -/
  | bgt (rd rs : Reg) (imm : BitVec 6)
  /-- `blt rX, rY, LABEL` (R154) -/
  | blt (rd rs : Reg) (imm : BitVec 6)
  /-- `addi rX, rY, IMM` (R161) -/
  | addi (rd rs : Reg) (imm : BitVec 6)
  /-- `muli rX, rY, IMM` (R162) -/
  | muli (rd rs : Reg) (imm : BitVec 6)
  /-- `divi rX, rY, IMM` (R163) -/
  | divi (rd rs : Reg) (imm : BitVec 6)
  /-- `andi rX, rY, IMM` (R164) -/
  | andi (rd rs : Reg) (imm : BitVec 6)
  /-- `ori rX, rY, IMM` (R165) -/
  | ori (rd rs : Reg) (imm : BitVec 6)
  /-- `lsi rX, rY, IMM` (R166) -/
  | lsi (rd rs : Reg) (imm : BitVec 6)
  /-- `rsi rX, rY, IMM` (R167) -/
  | rsi (rd rs : Reg) (imm : BitVec 6)
  /-- a reserved word of ID 17 (R90) -/
  | reservedId17 (rd rs rt : Reg)
  /-- a reserved word of ID 18 (R90) -/
  | reservedId18 (rd rs rt : Reg)
  /-- a reserved L-type word (R91): opcode field `10000`, neither `ret` nor `exit` -/
  | reservedLtype (imm : BitVec 11)
  deriving DecidableEq, Repr

end Sys2Proof
end

