-- ==== Sys2Proof/WellFormed.lean ====
section
/-!
DEFINITION. When an instruction term stands for a word of its own row (30_encoding.md R91, R96).
The field types already bound every operand; the one check left is first match: a reserved L-type word is
neither the word of `ret` nor the word of `exit`.
-/

namespace Sys2Proof

/-- `i` is the reading of some word: a reserved L-type term does not take the immediate of `ret` (0) or of
`exit` (1024), which the earlier rows of the table take (R91, R96). -/
def Instr.wf : Instr → Bool
  | .reservedLtype imm => imm != 0#11 && imm != 1024#11
  | .call _ | .ret | .exit => true
  | .add _ _ _ | .sub _ _ _ | .mul _ _ _ | .div _ _ _ | .pow _ _ _ | .mod _ _ _ | .and _ _ _ | .or _ _ _ => true
  | .xor _ _ _ | .xnor _ _ _ | .ls _ _ _ | .rs _ _ _ | .lr _ _ _ | .rr _ _ _ => true
  | .stw _ _ _ | .ldw _ _ _ | .beq _ _ _ | .bne _ _ _ | .bgt _ _ _ | .blt _ _ _ => true
  | .addi _ _ _ | .muli _ _ _ | .divi _ _ _ | .andi _ _ _ | .ori _ _ _ | .lsi _ _ _ | .rsi _ _ _ => true
  | .reservedId17 _ _ _ | .reservedId18 _ _ _ => true

end Sys2Proof
end

