-- ==== Sys2Proof/Decode.lean ====
section
/-!
DEFINITION. From a word to an instruction and back (30_encoding.md R80 to R96). `decode` is total on all 65536
words: the words the spec reserves are read as the reserved rows of the table, whose meaning is a model fault.
-/

namespace Sys2Proof

/-! ### Fields (R82 to R86) -/

/-- The register a 3-bit number selects (R21). -/
def Reg.ofBits (b : BitVec 3) : Reg :=
  match b.toNat with
  | 0 => .r0
  | 1 => .r1
  | 2 => .r2
  | 3 => .r3
  | 4 => .r4
  | 5 => .r5
  | 6 => .r6
  | _ => .r7

/-- The 3-bit number of a register (R21). -/
def Reg.bits : Reg → BitVec 3
  | .r0 => 0#3
  | .r1 => 1#3
  | .r2 => 2#3
  | .r3 => 3#3
  | .r4 => 4#3
  | .r5 => 5#3
  | .r6 => 6#3
  | .r7 => 7#3

/-- Decoder output `X`: the register in field RD, word[15:13] (R86). -/
def fieldX (w : Word) : Reg := Reg.ofBits (w.extractLsb' 13 3)
/-- Decoder output `Y`: the register in field RS, word[12:10] (R86). -/
def fieldY (w : Word) : Reg := Reg.ofBits (w.extractLsb' 10 3)
/-- Decoder output `Z`: the register in field RT, word[9:7] (R86). -/
def fieldZ (w : Word) : Reg := Reg.ofBits (w.extractLsb' 7 3)
/-- IMM6 = word[9:4] (R83). -/
def fieldImm6 (w : Word) : BitVec 6 := w.extractLsb' 4 6
/-- IMM11 = word[15:5] (R84). -/
def fieldImm11 (w : Word) : BitVec 11 := w.extractLsb' 5 11
/-- The primary opcode, word[3:0] (R85). -/
def fieldPrimary (w : Word) : BitVec 4 := w.extractLsb' 0 4
/-- The sub-opcode of an R-type word, word[6:4] (R82). -/
def fieldSub (w : Word) : BitVec 3 := w.extractLsb' 4 3

/-! ### Decoding (R94) -/

/-- An L-type word, primary opcode 0000: `call`, `ret`, `exit` or reserved (R91, R94). -/
def decodeLType (w : Word) : Instr :=
  if w.extractLsb' 4 1 = 0#1 then .call (fieldImm11 w)
  else if w = 0x0010#16 then .ret
  else if w = 0x8010#16 then .exit
  else .reservedLtype (fieldImm11 w)

/-- An R-type word with primary opcode 0001 (R94). -/
def decodeRType1 (w : Word) : Instr :=
  match (fieldSub w).toNat with
  | 0 => .add (fieldX w) (fieldY w) (fieldZ w)
  | 1 => .sub (fieldX w) (fieldY w) (fieldZ w)
  | 2 => .mul (fieldX w) (fieldY w) (fieldZ w)
  | 3 => .div (fieldX w) (fieldY w) (fieldZ w)
  | 4 => .pow (fieldX w) (fieldY w) (fieldZ w)
  | 5 => .mod (fieldX w) (fieldY w) (fieldZ w)
  | 6 => .and (fieldX w) (fieldY w) (fieldZ w)
  | _ => .or (fieldX w) (fieldY w) (fieldZ w)

/-- An R-type word with primary opcode 0010; sub-opcodes 110 and 111 are reserved (R90, R94). -/
def decodeRType2 (w : Word) : Instr :=
  match (fieldSub w).toNat with
  | 0 => .xor (fieldX w) (fieldY w) (fieldZ w)
  | 1 => .xnor (fieldX w) (fieldY w) (fieldZ w)
  | 2 => .ls (fieldX w) (fieldY w) (fieldZ w)
  | 3 => .rs (fieldX w) (fieldY w) (fieldZ w)
  | 4 => .lr (fieldX w) (fieldY w) (fieldZ w)
  | 5 => .rr (fieldX w) (fieldY w) (fieldZ w)
  | 6 => .reservedId17 (fieldX w) (fieldY w) (fieldZ w)
  | _ => .reservedId18 (fieldX w) (fieldY w) (fieldZ w)

/-- The decoding procedure, one arm per value of the primary opcode (R85, R94; the last arm is 1111). -/
def decode (w : Word) : Instr :=
  match (fieldPrimary w).toNat with
  | 0 => decodeLType w
  | 1 => decodeRType1 w
  | 2 => decodeRType2 w
  | 3 => .stw (fieldX w) (fieldY w) (fieldImm6 w)
  | 4 => .ldw (fieldX w) (fieldY w) (fieldImm6 w)
  | 5 => .beq (fieldX w) (fieldY w) (fieldImm6 w)
  | 6 => .bne (fieldX w) (fieldY w) (fieldImm6 w)
  | 7 => .bgt (fieldX w) (fieldY w) (fieldImm6 w)
  | 8 => .blt (fieldX w) (fieldY w) (fieldImm6 w)
  | 9 => .addi (fieldX w) (fieldY w) (fieldImm6 w)
  | 10 => .muli (fieldX w) (fieldY w) (fieldImm6 w)
  | 11 => .divi (fieldX w) (fieldY w) (fieldImm6 w)
  | 12 => .andi (fieldX w) (fieldY w) (fieldImm6 w)
  | 13 => .ori (fieldX w) (fieldY w) (fieldImm6 w)
  | 14 => .lsi (fieldX w) (fieldY w) (fieldImm6 w)
  | _ => .rsi (fieldX w) (fieldY w) (fieldImm6 w)

/-! ### Encoding (R95) -/

/-- An R-type word: RD, RS, RT, sub-opcode, primary opcode, bit 15 first (R82, R95). -/
def encodeRType (sub : BitVec 3) (p : BitVec 4) (rd rs rt : Reg) : Word :=
  rd.bits ++ rs.bits ++ rt.bits ++ sub ++ p

/-- A C-type word: RD, RS, IMM6, OP4, bit 15 first (R83, R95). -/
def encodeCType (op4 : BitVec 4) (rd rs : Reg) (imm : BitVec 6) : Word :=
  rd.bits ++ rs.bits ++ imm ++ op4

/-- An L-type word: IMM11, OP5, bit 15 first (R84, R95). -/
def encodeLType (op5 : BitVec 5) (imm : BitVec 11) : Word :=
  imm ++ op5

/-- The word of an instruction (R89, R95). -/
def encode : Instr → Word
  | .call imm => encodeLType 0b00000#5 imm
  | .ret => encodeLType 0b10000#5 0#11
  | .exit => encodeLType 0b10000#5 1024#11
  | .add rd rs rt => encodeRType 0b000#3 0b0001#4 rd rs rt
  | .sub rd rs rt => encodeRType 0b001#3 0b0001#4 rd rs rt
  | .mul rd rs rt => encodeRType 0b010#3 0b0001#4 rd rs rt
  | .div rd rs rt => encodeRType 0b011#3 0b0001#4 rd rs rt
  | .pow rd rs rt => encodeRType 0b100#3 0b0001#4 rd rs rt
  | .mod rd rs rt => encodeRType 0b101#3 0b0001#4 rd rs rt
  | .and rd rs rt => encodeRType 0b110#3 0b0001#4 rd rs rt
  | .or rd rs rt => encodeRType 0b111#3 0b0001#4 rd rs rt
  | .xor rd rs rt => encodeRType 0b000#3 0b0010#4 rd rs rt
  | .xnor rd rs rt => encodeRType 0b001#3 0b0010#4 rd rs rt
  | .ls rd rs rt => encodeRType 0b010#3 0b0010#4 rd rs rt
  | .rs rd rs rt => encodeRType 0b011#3 0b0010#4 rd rs rt
  | .lr rd rs rt => encodeRType 0b100#3 0b0010#4 rd rs rt
  | .rr rd rs rt => encodeRType 0b101#3 0b0010#4 rd rs rt
  | .stw rd rs imm => encodeCType 0b0011#4 rd rs imm
  | .ldw rd rs imm => encodeCType 0b0100#4 rd rs imm
  | .beq rd rs imm => encodeCType 0b0101#4 rd rs imm
  | .bne rd rs imm => encodeCType 0b0110#4 rd rs imm
  | .bgt rd rs imm => encodeCType 0b0111#4 rd rs imm
  | .blt rd rs imm => encodeCType 0b1000#4 rd rs imm
  | .addi rd rs imm => encodeCType 0b1001#4 rd rs imm
  | .muli rd rs imm => encodeCType 0b1010#4 rd rs imm
  | .divi rd rs imm => encodeCType 0b1011#4 rd rs imm
  | .andi rd rs imm => encodeCType 0b1100#4 rd rs imm
  | .ori rd rs imm => encodeCType 0b1101#4 rd rs imm
  | .lsi rd rs imm => encodeCType 0b1110#4 rd rs imm
  | .rsi rd rs imm => encodeCType 0b1111#4 rd rs imm
  | .reservedId17 rd rs rt => encodeRType 0b110#3 0b0010#4 rd rs rt
  | .reservedId18 rd rs rt => encodeRType 0b111#3 0b0010#4 rd rs rt
  | .reservedLtype imm => encodeLType 0b10000#5 imm

/-! ### The instruction table's ID and Type columns (R87, R89) -/

/-- Instruction ID of a word, decoder output `I`, by the formula of R87. -/
def decoderId (w : Word) : Nat :=
  match (fieldPrimary w).toNat with
  | 0 => 1 + (w.extractLsb' 4 1).toNat
  | 1 => 3 + (fieldSub w).toNat
  | 2 => 11 + (fieldSub w).toNat
  | p => 16 + p

/-- Instruction type of an ID, decoder output `T` (R87); 0 stands for the blank type of IDs 17 and 18. -/
def typeOfId (id : Nat) : Nat :=
  if id ≤ 2 then 1
  else if id ≤ 16 then 2
  else if id ≤ 18 then 0
  else if id ≤ 20 then 3
  else if id ≤ 24 then 4
  else if id ≤ 27 then 5
  else 6

/-- Instruction type of a word, decoder output `T` (R86, R87). -/
def decoderType (w : Word) : Nat := typeOfId (decoderId w)

/-- The ID column of the instruction table (R89). The table gives `reserved.ltype` no ID; a word of that row has the
ID of its opcode field, 2 (R87). -/
def Instr.id : Instr → Nat
  | .call _ => 1
  | .ret | .exit | .reservedLtype _ => 2
  | .add _ _ _ => 3
  | .sub _ _ _ => 4
  | .mul _ _ _ => 5
  | .div _ _ _ => 6
  | .pow _ _ _ => 7
  | .mod _ _ _ => 8
  | .and _ _ _ => 9
  | .or _ _ _ => 10
  | .xor _ _ _ => 11
  | .xnor _ _ _ => 12
  | .ls _ _ _ => 13
  | .rs _ _ _ => 14
  | .lr _ _ _ => 15
  | .rr _ _ _ => 16
  | .reservedId17 _ _ _ => 17
  | .reservedId18 _ _ _ => 18
  | .stw _ _ _ => 19
  | .ldw _ _ _ => 20
  | .beq _ _ _ => 21
  | .bne _ _ _ => 22
  | .bgt _ _ _ => 23
  | .blt _ _ _ => 24
  | .addi _ _ _ => 25
  | .muli _ _ _ => 26
  | .divi _ _ _ => 27
  | .andi _ _ _ => 28
  | .ori _ _ _ => 29
  | .lsi _ _ _ => 30
  | .rsi _ _ _ => 31

/-- The Type column of the instruction table (R89), 0 for the blank type of IDs 17 and 18. The table gives
`reserved.ltype` no type; a word of that row has the type of its opcode field, 1 (R87). -/
def Instr.type : Instr → Nat
  | .call _ | .ret | .exit | .reservedLtype _ => 1
  | .add _ _ _ | .sub _ _ _ | .mul _ _ _ | .div _ _ _ | .pow _ _ _ | .mod _ _ _ | .and _ _ _ | .or _ _ _ => 2
  | .xor _ _ _ | .xnor _ _ _ | .ls _ _ _ | .rs _ _ _ | .lr _ _ _ | .rr _ _ _ => 2
  | .reservedId17 _ _ _ | .reservedId18 _ _ _ => 0
  | .stw _ _ _ | .ldw _ _ _ => 3
  | .beq _ _ _ | .bne _ _ _ | .bgt _ _ _ | .blt _ _ _ => 4
  | .addi _ _ _ | .muli _ _ _ | .divi _ _ _ => 5
  | .andi _ _ _ | .ori _ _ _ | .lsi _ _ _ | .rsi _ _ _ => 6

/-- The mnemonic of an instruction's row, as spec/opcode_table.json spells it (R89, R96). -/
def Instr.mnemonic : Instr → String
  | .call _ => "call"
  | .ret => "ret"
  | .exit => "exit"
  | .add _ _ _ => "add"
  | .sub _ _ _ => "sub"
  | .mul _ _ _ => "mul"
  | .div _ _ _ => "div"
  | .pow _ _ _ => "pow"
  | .mod _ _ _ => "mod"
  | .and _ _ _ => "and"
  | .or _ _ _ => "or"
  | .xor _ _ _ => "xor"
  | .xnor _ _ _ => "xnor"
  | .ls _ _ _ => "ls"
  | .rs _ _ _ => "rs"
  | .lr _ _ _ => "lr"
  | .rr _ _ _ => "rr"
  | .stw _ _ _ => "stw"
  | .ldw _ _ _ => "ldw"
  | .beq _ _ _ => "beq"
  | .bne _ _ _ => "bne"
  | .bgt _ _ _ => "bgt"
  | .blt _ _ _ => "blt"
  | .addi _ _ _ => "addi"
  | .muli _ _ _ => "muli"
  | .divi _ _ _ => "divi"
  | .andi _ _ _ => "andi"
  | .ori _ _ _ => "ori"
  | .lsi _ _ _ => "lsi"
  | .rsi _ _ _ => "rsi"
  | .reservedId17 _ _ _ => "reserved.id17"
  | .reservedId18 _ _ _ => "reserved.id18"
  | .reservedLtype _ => "reserved.ltype"

/-! ### The machine-readable table (R96) -/

/-- One row of spec/opcode_table.json: a word `w` selects it when `w` and `mask` is `bits` (R96). -/
structure OpcodeRow where
  mnemonic : String
  mask : Word
  bits : Word
  deriving DecidableEq, Repr

/-- The rows in the order of the table (R96). -/
def opcodeRows : List OpcodeRow :=
  [⟨"call", 0x001F, 0x0000⟩, ⟨"ret", 0xFFFF, 0x0010⟩, ⟨"exit", 0xFFFF, 0x8010⟩,
   ⟨"add", 0x007F, 0x0001⟩, ⟨"sub", 0x007F, 0x0011⟩, ⟨"mul", 0x007F, 0x0021⟩, ⟨"div", 0x007F, 0x0031⟩,
   ⟨"pow", 0x007F, 0x0041⟩, ⟨"mod", 0x007F, 0x0051⟩, ⟨"and", 0x007F, 0x0061⟩, ⟨"or", 0x007F, 0x0071⟩,
   ⟨"xor", 0x007F, 0x0002⟩, ⟨"xnor", 0x007F, 0x0012⟩, ⟨"ls", 0x007F, 0x0022⟩, ⟨"rs", 0x007F, 0x0032⟩,
   ⟨"lr", 0x007F, 0x0042⟩, ⟨"rr", 0x007F, 0x0052⟩] ++
  [⟨"stw", 0x000F, 0x0003⟩, ⟨"ldw", 0x000F, 0x0004⟩, ⟨"beq", 0x000F, 0x0005⟩, ⟨"bne", 0x000F, 0x0006⟩,
   ⟨"bgt", 0x000F, 0x0007⟩, ⟨"blt", 0x000F, 0x0008⟩, ⟨"addi", 0x000F, 0x0009⟩, ⟨"muli", 0x000F, 0x000A⟩,
   ⟨"divi", 0x000F, 0x000B⟩, ⟨"andi", 0x000F, 0x000C⟩, ⟨"ori", 0x000F, 0x000D⟩, ⟨"lsi", 0x000F, 0x000E⟩,
   ⟨"rsi", 0x000F, 0x000F⟩, ⟨"reserved.id17", 0x007F, 0x0062⟩, ⟨"reserved.id18", 0x007F, 0x0072⟩,
   ⟨"reserved.ltype", 0x001F, 0x0010⟩]

/-- The first row a word matches, rows tried in order (R96). -/
def firstRow (w : Word) : Option OpcodeRow :=
  opcodeRows.find? fun r => w &&& r.mask = r.bits

/-! ### The table's words, as the host numbers them -/

/-- The instruction word of the `nbits` low bits of `w`, every bit above them 0. An instruction is one word and
bit 0 of the word is its least significant bit (R8, R80), so no byte order enters. -/
def placedWord (nbits w : Nat) : Word := BitVec.ofNat 16 (w % 2 ^ nbits)

/-- The instruction the decoder reads from an instruction whose bits are `w`: none where they do not fit one word. -/
def decodeTableWord (nbits w : Nat) : Option Instr :=
  if nbits ≤ 16 ∧ w < 2 ^ 16 then some (decode (placedWord nbits w)) else none

end Sys2Proof
end

