-- ==== Sys2Proof/Config.lean ====
section
/-!
DEFINITION. What the spec leaves open and the model takes as a constant without a body (00_scope.md R6,
41_alu_register.md R137, 93_implementation_defined.md part 1), and the fixed parameters of R5.
No proof can see the value of an opaque constant, so a theorem holds whatever it is.
-/

namespace Sys2Proof

/-! ### Fixed parameters (R5) -/

/-- First word address after ROM; ROM is 0 to 255 (R5 `ROM_WORDS`, R51). -/
abbrev Config.romEnd : Nat := 256
/-- First word address after RAM; RAM is 256 to 319 (R5 `RAM_WORDS`, R51, C2). -/
abbrev Config.ramEnd : Nat := 320
/-- First word address after the display; the display is 320 to 335 (R5 `DISPLAY_WORDS`, R51). -/
abbrev Config.displayEnd : Nat := 336
/-- The keyboard buffer's one word address (R5 `CHAR_IN_LOC`, R51). -/
abbrev Config.charInLoc : Nat := 336

/-! ### The ALU's open corners (R137, D14): total functions of the operand words -/

/-- `P_DIV_ZERO(a)`: division with B = 0 (R137, U9). Free value, assumption log 6. -/
opaque Config.divZero : Word → Word
/-- `P_MOD_ZERO(a)`: modulo with B = 0 (R137, U10). Free value, assumption log 6. -/
opaque Config.modZero : Word → Word
/-- `P_POW_NEG(a, b)`: power with B < 0 (R137, U11). Free value, assumption log 6. -/
opaque Config.powNeg : Word → Word → Word
/-- `P_POW_OVF(a, b)`: power whose exact value does not fit 32 signed bits (R137, U12). Free value, assumption log 6. -/
opaque Config.powOvf : Word → Word → Word
/-- `P_SHL_OOR(a, b)`: left shift with B < 0 or B >= 32 (R137, U13). Free value, assumption log 6. -/
opaque Config.shlOor : Word → Word → Word
/-- `P_SHR_OOR(a, b)`: right shift with B < 0 or B >= 32 (R137, U14). Free value, assumption log 6. -/
opaque Config.shrOor : Word → Word → Word
/-- `P_ROL_OOR(a, b)`: left rotate with B < 0 or B >= 16 (R137, U15). Free value, assumption log 6. -/
opaque Config.rolOor : Word → Word → Word
/-- `P_ROR_OOR(a, b)`: right rotate with B < 0 or B >= 16 (R137, U16). Free value, assumption log 6. -/
opaque Config.rorOor : Word → Word → Word

/-! ### Launch contents, key data, glyphs (R6) -/

/-- `ROM0`, `RAM0`, `DISP0`: what a word of ROM, RAM or display holds before anything has set it
(R6, R43, R52 to R54, U7, U8). Free value, assumption log 2. -/
opaque Config.launchWord : Nat → Word
/-- What the environment puts on the key data input in a clock period that the state's own script does
not reach, before the limit of R219 is applied (R211, U22). Free value, assumption log 3. -/
opaque Config.keyDataRaw : Nat → Word
/-- `ENTER_KEY_CODE` less one: the code is an open nonzero word (R219, D20). Assumption log 4. -/
opaque Config.enterKeyIndex : Fin 65535
/-- Whether a word is a member of `KEYCODES` beyond 33 to 90 and the Enter key's code (R219, U22). Assumption log 4. -/
opaque Config.otherKeyCode : Word → Bool
/-- `glyph`: the 25-bit lamp pattern of a character code, uninterpreted (R209, D21, U21). -/
opaque Config.glyph : Word → BitVec 25

/-! ### Values of internal latches that the spec does not state -/

/-- The ALU's output for its two inputs when no operation is selected (`J` = 0: R249 lists none for `call`);
it reaches only the latch RZ. Free value, assumption log 7. -/
opaque Config.aluIdle : Word → Word → Word
/-- The memory return data in a clock period without a read (`M` = 0, R249), by period number; it reaches only
the latch RY. Free value, assumption log 7. -/
opaque Config.busIdle : Nat → Word
/-- The latch numbered 0 to 5 (IR, RA, RB, RZ, RY, RM) after an `exit`, by period number (R112, U17). Free value, assumption log 8. -/
opaque Config.exitLatch : Nat → Nat → Word
/-- The step counter after an `exit`, by period number (R112, U17). Free value, assumption log 8. -/
opaque Config.exitStep : Nat → Fin 6
/-- Whether PC after an `exit` is x[1] rather than pc + 1, by period number (R112, U17). Free value, assumption log 8. -/
opaque Config.exitPcIsLink : Nat → Bool

end Sys2Proof
end

