-- ==== Sys2Proof/Machine/State.lean ====
section
/-!
DEFINITION. The state as plain data (10_state.md R20), the reasons a step can stop, and the state after reset (R42).
-/

namespace Sys2Proof.Machine

/-- The register file. r0 has no storage: it reads 0 and discards writes (R22), which the one read and the one
write of Machine/Ops.lean say. -/
structure RegFile where
  r1 : Word
  r2 : Word
  r3 : Word
  r4 : Word
  r5 : Word
  r6 : Word
  r7 : Word
  deriving DecidableEq, Repr

/-- The internal latches (R30 to R32): instruction register, ALU inputs, ALU result, write-back, store data. -/
structure Latches where
  ir : Word
  ra : Word
  rb : Word
  rz : Word
  ry : Word
  rm : Word
  deriving DecidableEq, Repr

/-- The values of the step counter S (R33): `s0` is the cleared counter, which names no step. -/
inductive StepNo
  | s0 | s1 | s2 | s3 | s4 | s5
  deriving DecidableEq, Repr

/-- The keyboard's states 0 to 4, Q (R212, R213). -/
inductive KbdState
  /-- state 0, Reset -/
  | reset
  /-- state 1, Wait for Key Press -/
  | waitPress
  /-- state 2, Store Key -/
  | storeKey
  /-- state 3, Wait + Read Key -/
  | waitRead
  /-- state 4, Wait for Key Release -/
  | waitRelease
  deriving DecidableEq, Repr

/-- The keyboard: Q and the key buffer KB (R212). -/
structure Keyboard where
  q : KbdState
  kb : Word
  deriving DecidableEq, Repr

/-- The stored words of ROM, RAM and display memory: pairs of a word address and a word, addresses strictly
rising (Memory.wf in Machine/Ops.lean). The word is the smallest unit the spec addresses (R50, R57), so a cell
holds a word and not a byte (assumption log 1). An unlisted address holds no value that the model knows
(R43; assumption log 2). -/
abbrev Memory := List (Nat × Word)

/-- The model faults of R201. Each is the spec's own stop, not an event of the hardware; each is safe: the model
stops where the hardware would go on with values the spec does not give. -/
inductive Fault
  /-- `ModelFault.FetchOutsideROM(PC)`: raised by the fetch with PC in 256 to 65535 (R64, D3). Safe. -/
  | fetchOutsideROM (pc : Word)
  /-- `ModelFault.ReservedEncoding(w)`: raised by a reserved word, IDs 17 and 18 or an L-type word with opcode field
  10000 that is neither `ret` nor `exit` (R90, R91, D4, D5). Safe. -/
  | reservedEncoding (w : Word)
  /-- `ModelFault.UnmappedAccess(EA)`: raised by `ldw` with EA in 337 to 65535 and by `stw` with EA in 336 to 65535
  (R56, D8). Safe. -/
  | unmappedAccess (ea : Word)
  deriving DecidableEq, Repr

/-- Runs and moves that the spec puts outside the model. Each is safe: nothing is said of what the hardware does. -/
inductive Refusal
  /-- raised by an arm of `exec` for an instruction without a meaning; no arm does. Safe. -/
  | notModelled (mnemonic : String)
  /-- raised by `step` when the processor would run, or Startup would start it, with Automatic off
  (R222, R223, U19). Safe. -/
  | automaticOff
  /-- raised by `exit` when Startup is still on (R244, D22, U18). Safe. -/
  | exitWithStartupOn
  /-- raised when Startup is turned on, or found on, while Exit = 1 and the clock is stopped (R245, D22, U18). Safe. -/
  | startupWhileExit
  /-- raised by a single clock period inside `exit`, for which the source gives no register transfers (R112, R248).
  The instruction as a whole has its meaning. Safe. -/
  | exitHasNoSteps
  /-- raised by the operator's move that edits ROM while the processor runs (R222, R253 (d)). Safe. -/
  | romEditedDuringRun
  /-- raised by the operator's move that puts on the key data input a value that is neither 0 nor a member of
  `KEYCODES` (R211, R219). Safe. -/
  | notAKeyCode
  deriving DecidableEq, Repr

/-- The whole state (R20), with the positions of the operator's three switches (R40) and two fields of the model's
own, `keys` and `period` (assumption log 3). -/
structure State where
  /-- r1 to r7 (R21 to R25) -/
  regs : RegFile
  /-- PC: the word address of the next word to fetch (R27) -/
  pc : Word
  /-- IR, RA, RB, RZ, RY, RM (R30 to R32) -/
  latches : Latches
  /-- S, the step counter (R33) -/
  stepNo : StepNo
  /-- Running: the clock runs (R35) -/
  running : Bool
  /-- Exit: an `exit` instruction was reached (R35) -/
  exitFlag : Bool
  /-- ROM, RAM and display memory (R51 to R54) -/
  mem : Memory
  /-- Q and KB (R212) -/
  kbd : Keyboard
  /-- the Startup switch is on (R35, R40) -/
  startup : Bool
  /-- the Reset switch is on: signal `R` is low (R35, R36, R40) -/
  resetSwitch : Bool
  /-- the Automatic switch is on (R35, R40) -/
  automatic : Bool
  /-- the model's own: `KEYIN` in the coming clock periods, as far as the environment has fixed it (R211, R218) -/
  keys : List Word
  /-- the model's own: how many clock periods have gone by; numbers `KEYIN` and the free values (R218) -/
  period : Nat
  deriving DecidableEq, Repr

/-- The register file after reset (R42, D11; assumption log 5). -/
def RegFile.cleared : RegFile := ⟨0, 0, 0, 0, 0, 0, 0⟩

/-- The latches after reset (R42, D11; assumption log 5). -/
def Latches.cleared : Latches := ⟨0, 0, 0, 0, 0, 0⟩

/-- The keyboard after reset (R42, R212). -/
def Keyboard.cleared : Keyboard := ⟨.reset, 0⟩

/-- The machine right after reset, standard configuration 1: Reset has been on and is off again, Startup is off,
Automatic is on (R42, R241, R243). Memory lists nothing: every word holds its launch value (R43). -/
def State.reset : State where
  regs := .cleared
  pc := 0
  latches := .cleared
  stepNo := .s0
  running := false
  exitFlag := false
  mem := []
  kbd := .cleared
  startup := false
  resetSwitch := false
  automatic := true
  keys := []
  period := 0

end Sys2Proof.Machine
end

