-- ==== Sys2Proof/Machine/Operands.lean ====
section
/-!
DEFINITION. Readings of words and of immediate fields (00_scope.md R9, R10; 30_encoding.md R88).
-/

namespace Sys2Proof.Machine

/-- `s16`: the two's-complement reading of a word (R9; also the ALU's `sext32`, R10). -/
def s16 (w : Word) : Int := w.toInt

/-- `trunc16(z) = z mod 65536` (R9, D1). -/
def trunc16 (z : Int) : Word := BitVec.ofInt 16 z

/-- `sext_6` of a 6-bit field (R10): -32 to 31. -/
def sext6 (f : BitVec 6) : Int := f.toInt

/-- `zext_6` of a 6-bit field (R10): 0 to 63. -/
def zext6 (f : BitVec 6) : Int := f.toNat

/-- `sext_11` of an 11-bit field (R10, C3): -1024 to 1023. -/
def sext11 (f : BitVec 11) : Int := f.toInt

/-- "6-Bit Imm, Sign Extend", decoder output `5` (R86): the ALU's B word of types 3 and 5, the offset of type 4. -/
def signedImm (f : BitVec 6) : Word := trunc16 (sext6 f)

/-- "6-Bit Imm, Logical Extend", decoder output `6` (R86): the ALU's B word of type 6. -/
def logicalImm (f : BitVec 6) : Word := trunc16 (zext6 f)

/-- "11-Bit Imm, Sign Extend", decoder output `1` (R86, C3): the offset of `call`. -/
def callImm (f : BitVec 11) : Word := trunc16 (sext11 f)

end Sys2Proof.Machine
end

