-- ==== Sys2Proof/Machine/Alu.lean ====
section
/-!
DEFINITION. The ALU (41_alu_register.md R121 to R139). Every operation reads its two words as signed integers,
computes exactly and delivers the low 16 bits (R121, D1, D28). Where R137 leaves the result open, the result is an
opaque function of the operand words (assumption log 6).
-/

namespace Sys2Proof.Machine

/-- `ALU.add` (R122). -/
def aluAdd (a b : Word) : Word := trunc16 (s16 a + s16 b)

/-- `ALU.sub`: first minus second (R123). -/
def aluSub (a b : Word) : Word := trunc16 (s16 a - s16 b)

/-- `ALU.mul` (R124). -/
def aluMul (a b : Word) : Word := trunc16 (s16 a * s16 b)

/-- The quotient rounded toward zero (R125; G3, assumption log 12). -/
def quotient (a b : Int) : Int := a.sign * b.sign * (a.natAbs / b.natAbs : Nat)

/-- `ALU.div`; the open corner is a divisor of 0 (R125, R137). -/
def aluDiv (a b : Word) : Word :=
  if s16 b = 0 then Config.divZero a else trunc16 (quotient (s16 a) (s16 b))

/-- `ALU.mod`; the open corner is a divisor of 0 (R127, R137; G5, assumption log 12). -/
def aluMod (a b : Word) : Word :=
  if s16 b = 0 then Config.modZero a else trunc16 (s16 a - s16 b * quotient (s16 a) (s16 b))

/-- The exact power `a ^ n`, with `a ^ 0 = 1` for every `a` (R126; G4, assumption log 12). The bases 0, 1, -1 and the sign
are computed apart so that a large exponent is cheap to evaluate; `exactPower_eq` in Laws/Alu.lean says it is `a ^ n`. -/
def exactPower (a : Int) (n : Nat) : Int :=
  if a.natAbs ≤ 1 then (if n = 0 then 1 else if n % 2 = 0 then a.natAbs else a)
  else if a < 0 ∧ n % 2 = 1 then -((a.natAbs ^ n : Nat) : Int)
  else ((a.natAbs ^ n : Nat) : Int)

/-- Whether an exact result fits 32 signed bits (R126). -/
def fits32 (z : Int) : Bool := -2147483648 ≤ z && z ≤ 2147483647

/-- Whether `a ^ n` fits 32 signed bits (R126): no base beyond -1 to 1 does with an exponent above 31, which is asked first so
that no large power is evaluated; `powerFits_eq` in Laws/Alu.lean says it is `fits32 (a ^ n)`. -/
def powerFits (a : Int) (n : Nat) : Bool := (a.natAbs ≤ 1 || n ≤ 31) && fits32 (exactPower a n)

/-- `ALU.pow`; the open corners are a negative exponent and a power beyond 32 signed bits (R126, R137). -/
def aluPow (a b : Word) : Word :=
  if s16 b < 0 then Config.powNeg a b
  else if powerFits (s16 a) (s16 b).toNat then trunc16 (exactPower (s16 a) (s16 b).toNat)
  else Config.powOvf a b

/-- `ALU.and` (R128). -/
def aluAnd (a b : Word) : Word := a &&& b

/-- `ALU.or` (R129). -/
def aluOr (a b : Word) : Word := a ||| b

/-- `ALU.xor` (R130). -/
def aluXor (a b : Word) : Word := a ^^^ b

/-- `ALU.xnor`: 0xFFFF less the exclusive OR (R131; G6, assumption log 12). -/
def aluXnor (a b : Word) : Word := 0xFFFF#16 - (a ^^^ b)

/-- `ALU.ls`: defined for amounts 0 to 31 (R132, R137). -/
def aluLs (a b : Word) : Word :=
  if 0 ≤ s16 b ∧ s16 b ≤ 31 then trunc16 (s16 a * 2 ^ (s16 b).toNat) else Config.shlOor a b

/-- `ALU.rs`: the arithmetic shift, defined for amounts 0 to 31 (R133, R137; G7 for 17 to 31, assumption log 12). -/
def aluRs (a b : Word) : Word :=
  if 0 ≤ s16 b ∧ s16 b ≤ 31 then trunc16 (s16 a / 2 ^ (s16 b).toNat) else Config.shrOor a b

/-- `ALU.lr`: the 16-bit rotation, defined for amounts 0 to 15 (R134, R137, D13; assumption log 13). -/
def aluLr (a b : Word) : Word :=
  if 0 ≤ s16 b ∧ s16 b ≤ 15 then
    BitVec.ofNat 16 (a.toNat * 2 ^ (s16 b).toNat % 65536 + a.toNat / 2 ^ (16 - (s16 b).toNat))
  else Config.rolOor a b

/-- `ALU.rr`: the 16-bit rotation, defined for amounts 0 to 15 (R135, R137, D13; assumption log 13). -/
def aluRr (a b : Word) : Word :=
  if 0 ≤ s16 b ∧ s16 b ≤ 15 then
    BitVec.ofNat 16 (a.toNat / 2 ^ (s16 b).toNat + a.toNat * 2 ^ (16 - (s16 b).toNat) % 65536)
  else Config.rorOor a b

/-- `ALU.cmpeq` (R138). -/
def aluCmpEq (a b : Word) : Word := if s16 a = s16 b then 1 else 0
/-- `ALU.cmpne` (R138). -/
def aluCmpNe (a b : Word) : Word := if s16 a ≠ s16 b then 1 else 0
/-- `ALU.cmpgt`, signed (R138, R156; G13, assumption log 12). -/
def aluCmpGt (a b : Word) : Word := if s16 a > s16 b then 1 else 0
/-- `ALU.cmplt`, signed (R138, R156; G13, assumption log 12). -/
def aluCmpLt (a b : Word) : Word := if s16 a < s16 b then 1 else 0

/-- The operations that control `J` selects: fourteen operations and four compares (R136, R138, R139). -/
inductive AluOp
  | add | sub | mul | div | pow | mod | and | or | xor | xnor | ls | rs | lr | rr
  | cmpEq | cmpNe | cmpGt | cmpLt
  deriving DecidableEq, Repr

/-- The word the ALU delivers to RZ (R121). -/
def aluApply : AluOp → Word → Word → Word
  | .add => aluAdd
  | .sub => aluSub
  | .mul => aluMul
  | .div => aluDiv
  | .pow => aluPow
  | .mod => aluMod
  | .and => aluAnd
  | .or => aluOr
  | .xor => aluXor
  | .xnor => aluXnor
  | .ls => aluLs
  | .rs => aluRs
  | .lr => aluLr
  | .rr => aluRr
  | .cmpEq => aluCmpEq
  | .cmpNe => aluCmpNe
  | .cmpGt => aluCmpGt
  | .cmpLt => aluCmpLt

end Sys2Proof.Machine
end

