-- ==== Sys2Proof/Machine/Control.lean ====
section
/-!
DEFINITION. The control signal generator (70_reset_and_hazards.md R249): every signal as a function of IR, the step
counter and RZ. A signal for which no listed term applies has the value 0.
-/

namespace Sys2Proof.Machine

/-- RB-Mux select `E` (R249, C14). -/
inductive RbSelect
  /-- 0: nothing selected -/
  | nothing
  /-- 1: register RB -/
  | register
  /-- 2: 6-Imm-Sign -/
  | immSign
  /-- 3: 6-Imm-Logical -/
  | immLogical
  deriving DecidableEq, Repr

/-- RY-Mux select `G` (R249). -/
inductive RySelect
  /-- 0: nothing selected -/
  | nothing
  /-- 1: RZ -/
  | rz
  /-- 2: PC -/
  | pc
  /-- 3: Memory Data -/
  | memory
  deriving DecidableEq, Repr

/-- PC-IAG select `H` (R249, C3). -/
inductive PcSelect
  /-- 0: nothing selected -/
  | nothing
  /-- 1: PC + 1 -/
  | next
  /-- 2: PC + 6-Imm-Sign -/
  | branch
  /-- 3: PC + 12-Imm-Sign (the 11-bit immediate) -/
  | call
  /-- 4: RZ -/
  | rz
  deriving DecidableEq, Repr

/-- Memory address select `L` (R249). -/
inductive AddressSelect
  /-- 0: nothing selected -/
  | nothing
  /-- 1: PC -/
  | pc
  /-- 2: RZ -/
  | rz
  deriving DecidableEq, Repr

/-- The thirteen signals the generator asserts (R249). -/
structure Control where
  a : Reg
  b : Reg
  c : Reg
  f : Bool
  i : Bool
  p : Bool
  e : RbSelect
  g : RySelect
  h : PcSelect
  m : Bool
  w : Bool
  l : AddressSelect
  j : Option AluOp
  deriving DecidableEq, Repr

/-- The operation an ID gives ("Op (given by `I`)", "Compare (given by `I`)"; R138, R139). -/
def aluOfId (id : Nat) : Option AluOp :=
  match id with
  | 3 => some .add
  | 4 => some .sub
  | 5 => some .mul
  | 6 => some .div
  | 7 => some .pow
  | 8 => some .mod
  | 9 => some .and
  | 10 => some .or
  | 11 => some .xor
  | 12 => some .xnor
  | 13 => some .ls
  | 14 => some .rs
  | 15 => some .lr
  | 16 => some .rr
  | 21 => some .cmpEq
  | 22 => some .cmpNe
  | 23 => some .cmpGt
  | 24 => some .cmpLt
  | 25 => some .add
  | 26 => some .mul
  | 27 => some .div
  | 28 => some .and
  | 29 => some .or
  | 30 => some .ls
  | 31 => some .rs
  | _ => none

/-- `A`: the register that RA loads (R249). -/
def controlA (id ty : Nat) (ir : Word) : Reg :=
  if id = 2 then .r1
  else if ty = 2 ∨ ty = 3 then fieldY ir
  else if ty = 4 then fieldX ir
  else if ty = 5 ∨ ty = 6 then fieldY ir
  else .r0

/-- `B`: the register that RB loads (R249). -/
def controlB (id ty : Nat) (ir : Word) : Reg :=
  if ty = 2 then fieldZ ir
  else if id = 19 then fieldX ir
  else if ty = 4 then fieldY ir
  else .r0

/-- `C`: the register that is written (R249). -/
def controlC (id ty : Nat) (ir : Word) : Reg :=
  if id = 1 then .r1
  else if ty = 2 ∨ id = 20 ∨ ty = 5 ∨ ty = 6 then fieldX ir
  else .r0

/-- `E`: the ALU's B input (R249). -/
def controlE (ty : Nat) : RbSelect :=
  if ty = 2 ∨ ty = 4 then .register
  else if ty = 3 ∨ ty = 5 then .immSign
  else if ty = 6 then .immLogical
  else .nothing

/-- `G`: what RY loads (R249). -/
def controlG (id ty : Nat) : RySelect :=
  if id = 1 then .pc
  else if id = 20 then .memory
  else if ty = 2 ∨ ty = 5 ∨ ty = 6 then .rz
  else .nothing

/-- `H`: the PC's next value (R249). -/
def controlH (id ty : Nat) (st : StepNo) : PcSelect :=
  match st with
  | .s1 => .next
  | .s4 => if id = 1 then .call else if id = 2 then .rz else if ty = 4 then .branch else .nothing
  | _ => .nothing

/-- `P`: whether PC loads; for a branch it is the value of RZ (R150, R249). -/
def controlP (ty : Nat) (st : StepNo) (rz : Word) : Bool :=
  match st with
  | .s1 => true
  | .s4 => decide (ty = 1 ∨ ty = 4 ∧ rz = 1)
  | _ => false

/-- `J`: the ALU's operation (R139, R249). -/
def controlJ (id ty : Nat) : Option AluOp :=
  if id = 2 then some .add
  else if ty = 3 then some .add
  else if ty = 2 ∨ ty = 4 ∨ ty = 5 ∨ ty = 6 then aluOfId id
  else none

/-- All signals, from IR, S and RZ (R249). -/
def controlSignals (ir : Word) (st : StepNo) (rz : Word) : Control :=
  let id := decoderId ir
  let ty := decoderType ir
  { a := controlA id ty ir
    b := controlB id ty ir
    c := controlC id ty ir
    f := decide (st = .s5 ∧ (ty = 1 ∨ ty = 2 ∨ id = 20 ∨ ty = 5 ∨ ty = 6))
    i := decide (st = .s1)
    p := controlP ty st rz
    e := controlE ty
    g := controlG id ty
    h := controlH id ty st
    m := decide (st = .s1 ∨ st = .s4 ∧ id = 20)
    w := decide (st = .s4 ∧ id = 19)
    l := if st = .s1 then .pc else if st = .s4 then .rz else .nothing
    j := controlJ id ty }

end Sys2Proof.Machine
end

