-- ==== Sys2Proof/Machine/Keyboard.lean ====
section
/-!
DEFINITION. The keyboard and its input buffer (60_exceptions.md R210 to R219).
-/

namespace Sys2Proof.Machine

/-- `ENTER_KEY_CODE`: an open nonzero word (R219, D20). -/
def enterKeyCode : Word := BitVec.ofNat 16 (Config.enterKeyIndex.val + 1)

/-- Membership in `KEYCODES`: nonzero; contains 33 to 90 and the Enter key's code; else open (R219). -/
def isKeyCode (w : Word) : Bool :=
  w != 0 && ((33 ≤ w.toNat && w.toNat ≤ 90) || w == enterKeyCode || Config.otherKeyCode w)

/-- A value of the key data input `I`: 0 while no key is held, the held key's code otherwise (R211). -/
def isKeyData (w : Word) : Bool := w == 0 || isKeyCode w

/-- `KEYIN` in a clock period that no script fixes: any value of the key data input (R6, R219, U22). -/
def freeKeyData (n : Nat) : Word :=
  if isKeyData (Config.keyDataRaw n) then Config.keyDataRaw n else 0

/-- `KEYIN` in the `j`-th coming clock period, counted from 1: from the state's script, else free (R211, R218). -/
def State.keyIn (s : State) (j : Nat) : Word :=
  match s.keys[j - 1]? with
  | some v => v
  | none => freeKeyData (s.period + j)

/-- One transition of the keyboard, at the end of a clock period with key data `i` and read signal `e`; the second
component is the output `O` during the period (R213, C9). -/
def kbdTick (k : Keyboard) (i : Word) (e : Bool) : Keyboard × Word :=
  match k.q with
  | .reset => (⟨.waitPress, k.kb⟩, 0)
  | .waitPress => (⟨if i = 0 then .waitPress else .storeKey, k.kb⟩, 0)
  | .storeKey => (⟨if i = 0 then .waitPress else .waitRead, i⟩, 0)
  | .waitRead => if e then (⟨.waitRelease, 0⟩, k.kb) else (k, 0)
  | .waitRelease => (⟨if i = 0 then .waitPress else .waitRelease, k.kb⟩, 0)

/-- A sequence of clock periods of the keyboard, each with its key data and read signal; the outputs in order (R213). -/
def kbdRun (k : Keyboard) : List (Word × Bool) → Keyboard × List Word
  | [] => (k, [])
  | (i, e) :: rest =>
    let r := kbdTick k i e
    let t := kbdRun r.1 rest
    (t.1, r.2 :: t.2)

/-- The keyboard through the five clock periods of one instruction; `isRead` says that the instruction is a `ldw` whose
effective address is 336, which asserts `E` in step 4. The second component is the output of step 4 (R218). -/
def kbdInstr (s : State) (isRead : Bool) : Keyboard × Word :=
  let k1 := (kbdTick s.kbd (s.keyIn 1) false).1
  let k2 := (kbdTick k1 (s.keyIn 2) false).1
  let k3 := (kbdTick k2 (s.keyIn 3) false).1
  let r4 := kbdTick k3 (s.keyIn 4) isRead
  ((kbdTick r4.1 (s.keyIn 5) false).1, r4.2)

/-- `KeyboardRead()`: the word a `ldw` from address 336 loads (R215, R218). -/
def keyboardRead (s : State) : Word := (kbdInstr s true).2

end Sys2Proof.Machine
end

