-- ==== Sys2Proof/Machine/Ops.lean ====
section
/-!
DEFINITION. The named operations over registers and memory, and the end of an instruction.
The hardware takes no exception and returns from none (60_exceptions.md R200, R204, R205), so no operation here
does: a model fault is an outcome that leaves no state (R201).
-/

namespace Sys2Proof.Machine

/-! ### Registers -/

/-- Read a general register; r0 reads 0 (R11 `x[i]`, R21, R22). -/
def RegFile.read (f : RegFile) : Reg → Word
  | .r0 => 0
  | .r1 => f.r1
  | .r2 => f.r2
  | .r3 => f.r3
  | .r4 => f.r4
  | .r5 => f.r5
  | .r6 => f.r6
  | .r7 => f.r7

/-- Write a general register; a write to r0 is discarded (R11 `x[i] <- v`, R22, D27). -/
def RegFile.write (f : RegFile) (r : Reg) (v : Word) : RegFile :=
  match r with
  | .r0 => f
  | .r1 => { f with r1 := v }
  | .r2 => { f with r2 := v }
  | .r3 => { f with r3 := v }
  | .r4 => { f with r4 := v }
  | .r5 => { f with r5 := v }
  | .r6 => { f with r6 := v }
  | .r7 => { f with r7 := v }

/-- `x[i]` (R11). -/
def State.x (s : State) (r : Reg) : Word := s.regs.read r

/-! ### Memory -/

/-- The word listed at an address, none where nothing is listed. -/
def Memory.lookup : Memory → Nat → Option Word
  | [], _ => none
  | (k, v) :: m, a => if k = a then some v else Memory.lookup m a

/-- Set the word at an address, keeping addresses strictly rising. -/
def Memory.store : Memory → Nat → Word → Memory
  | [], a, v => [(a, v)]
  | (k, w) :: m, a, v =>
    if a < k then (a, v) :: (k, w) :: m
    else if a = k then (a, v) :: m
    else (k, w) :: Memory.store m a v

/-- Addresses rise strictly from at least `lo` and name stored words (0 to 335). -/
def Memory.wfFrom : Nat → Memory → Bool
  | _, [] => true
  | lo, (k, _) :: m => lo ≤ k && k < Config.displayEnd && Memory.wfFrom (k + 1) m

/-- The canonical form: addresses strictly rising, each a word of ROM, RAM or display. An unlisted address reads as no
value, so no entry can equal it. -/
def Memory.wf (m : Memory) : Bool := Memory.wfFrom 0 m

/-- Set consecutive words from an address on. -/
def Memory.storeAll (m : Memory) (a : Nat) : List Word → Memory
  | [] => m
  | v :: vs => Memory.storeAll (m.store a v) (a + 1) vs

/-- The word that ROM, RAM or display memory holds at an address: the listed word, else the launch value
(R43, R52 to R54; assumption log 2). -/
def State.word (s : State) (a : Nat) : Word :=
  match s.mem.lookup a with
  | some v => v
  | none => Config.launchWord a

/-- The regions of the address map (R51). -/
inductive Region
  | rom | ram | display | keyboard | unmapped
  deriving DecidableEq, Repr

/-- The region of a word address (R51). -/
def regionOf (a : Word) : Region :=
  if a.toNat < Config.romEnd then .rom
  else if a.toNat < Config.ramEnd then .ram
  else if a.toNat < Config.displayEnd then .display
  else if a.toNat = Config.charInLoc then .keyboard
  else .unmapped

/-- `MemRead(a, 16)`: the word read, or the model fault (R62); `key` is what the keyboard presents. -/
def memRead (s : State) (key : Word) (a : Word) : Except Fault Word :=
  match regionOf a with
  | .rom | .ram | .display => .ok (s.word a.toNat)
  | .keyboard => .ok key
  | .unmapped => .error (.unmappedAccess a)

/-- `MemWrite(a, 16, v)`: memory after the write, or the model fault; a write to ROM has no effect (R63, D9). -/
def memWrite (s : State) (a v : Word) : Except Fault Memory :=
  match regionOf a with
  | .rom => .ok s.mem
  | .ram | .display => .ok (s.mem.store a.toNat v)
  | .keyboard | .unmapped => .error (.unmappedAccess a)

/-- The effective address of `stw` and `ldw`: base plus sign-extended offset, through the ALU's adder (R61, R140, C4). -/
def effectiveAddress (s : State) (base : Reg) (imm : BitVec 6) : Word :=
  aluAdd (s.x base) (signedImm imm)

/-! ### The end of an instruction -/

/-- The address after an instruction's own: what step 1 loads into PC (R28, R29). -/
def State.nextPc (s : State) : Word := s.pc + 1

/-- The state at the end of step 5. `s` is the state when step 1 began; `i` the instruction; `l` what the latches
hold; `target` the PC; `d` and `v` the register written and its word (r0 to write none); `isRead` whether the
instruction read the keyboard. The keyboard and the period count have gone through five clock periods (R218, R250),
and S is 1 again (R33). -/
def retire (s : State) (isRead : Bool) (l : Latches) (target : Word) (d : Reg) (v : Word) : State :=
  { s with
    regs := s.regs.write d v
    pc := target
    latches := l
    stepNo := .s1
    kbd := (kbdInstr s isRead).1
    keys := s.keys.drop 5
    period := s.period + 5 }

/-! ### The end of a run -/

/-- A step counter value from its number (R33). -/
def StepNo.ofFin (n : Fin 6) : StepNo :=
  match n.val with
  | 0 => .s0
  | 1 => .s1
  | 2 => .s2
  | 3 => .s3
  | 4 => .s4
  | _ => .s5

/-- What `exit` leaves: Exit set, Running cleared, registers, memory, display and keyboard as they were; PC is either
pc + 1 or x[1], and the latches and S hold free values (R112, R254, D7, U17; assumption log 8). -/
def halt (s : State) : State :=
  { s with
    exitFlag := true
    running := false
    pc := if Config.exitPcIsLink s.period then s.x .r1 else s.nextPc
    latches := ⟨Config.exitLatch s.period 0, Config.exitLatch s.period 1, Config.exitLatch s.period 2,
      Config.exitLatch s.period 3, Config.exitLatch s.period 4, Config.exitLatch s.period 5⟩
    stepNo := StepNo.ofFin (Config.exitStep s.period)
    period := s.period + 5 }

end Sys2Proof.Machine
end

