-- ==== Sys2Proof/Machine/Fetch.lean ====
section
/-!
DEFINITION. Instruction fetch (20_memory.md R64).
-/

namespace Sys2Proof.Machine

/-- The word at PC, or the model fault when PC is outside ROM (R64, D3). -/
def fetch (s : State) : Except Fault Word :=
  if s.pc.toNat < Config.romEnd then .ok (s.word s.pc.toNat) else .error (.fetchOutsideROM s.pc)

/-- The state with a word stored where the next fetch reads it, the processor running and about to begin step 1
(R36, R64, R242). Outside ROM there is no place a fetch reads. -/
def placeWord (s : State) (w : Word) : State :=
  { s with
    mem := if s.pc.toNat < Config.romEnd then s.mem.store s.pc.toNat w else s.mem
    running := true
    stepNo := .s1
    resetSwitch := false
    automatic := true }

end Sys2Proof.Machine
end

