-- ==== Sys2Proof/Machine/Datapath.lean ====
section
/-!
DEFINITION. One clock period of the processor (70_reset_and_hazards.md R247 to R249, R255): in the period in which S = s
the signals of step s are asserted, and at its end every enabled load, the memory and register-file writes, the
advance of S and the keyboard's transition happen together (D16, assumption log 7).
-/

namespace Sys2Proof.Machine

/-- The step counter's successor while the clock runs (R33). -/
def StepNo.advance : StepNo → StepNo
  | .s0 => .s1
  | .s1 => .s2
  | .s2 => .s3
  | .s3 => .s4
  | .s4 => .s5
  | .s5 => .s1

/-- The ALU's B input (R111: an unselected multiplexer passes nothing; R249 `E`). -/
def rbMux (e : RbSelect) (s : State) : Word :=
  match e with
  | .nothing => 0
  | .register => s.latches.rb
  | .immSign => signedImm (fieldImm6 s.latches.ir)
  | .immLogical => logicalImm (fieldImm6 s.latches.ir)

/-- The ALU's output; with no operation selected it is a free value (R249 `J`; assumption log 7). -/
def aluOut (j : Option AluOp) (a b : Word) : Word :=
  match j with
  | some op => aluApply op a b
  | none => Config.aluIdle a b

/-- RY's input (R249 `G`). -/
def ryMux (g : RySelect) (s : State) (busData : Word) : Word :=
  match g with
  | .nothing => 0
  | .rz => s.latches.rz
  | .pc => s.pc
  | .memory => busData

/-- PC's input (R249 `H`); with nothing selected no load is enabled. -/
def pcMux (h : PcSelect) (s : State) : Word :=
  match h with
  | .nothing => s.pc
  | .next => s.nextPc
  | .branch => s.pc + signedImm (fieldImm6 s.latches.ir)
  | .call => s.pc + callImm (fieldImm11 s.latches.ir)
  | .rz => s.latches.rz

/-- The keyboard's read signal `E`: a memory read of address 336 in step 4 (R211). -/
def keyboardReadSignal (c : Control) (s : State) : Bool :=
  c.m && decide (c.l = .rz ∧ regionOf s.latches.rz = .keyboard)

/-- Memory return data `N` of the period, or the model fault of the read; free in a period without a read
(R62, R64, R249 `M`, `L`; assumption log 7). -/
def busRead (c : Control) (s : State) (key : Word) : Except Fault Word :=
  if c.m then
    match c.l with
    | .pc => fetch s
    | .rz => memRead s key s.latches.rz
    | .nothing => .ok (Config.busIdle (s.period + 1))
  else .ok (Config.busIdle (s.period + 1))

/-- Memory at the end of the period, or the model fault of the write (R63, R249 `W`). -/
def busWrite (c : Control) (s : State) : Except Fault Memory :=
  if c.w then memWrite s s.latches.rz s.latches.rm else .ok s.mem

/-- The state at the end of a period, given its signals, memory return data, memory and keyboard (R247). -/
def latchAll (c : Control) (s : State) (busData : Word) (m : Memory) (k : Keyboard) : State :=
  { s with
    regs := if c.f then s.regs.write c.c s.latches.ry else s.regs
    pc := if c.p then pcMux c.h s else s.pc
    latches :=
      { ir := if c.i then busData else s.latches.ir
        ra := s.x c.a
        rb := s.x c.b
        rz := aluOut c.j s.latches.ra (rbMux c.e s)
        ry := ryMux c.g s busData
        rm := s.latches.rb }
    stepNo := s.stepNo.advance
    mem := m
    kbd := k
    keys := s.keys.drop 1
    period := s.period + 1 }

/-- Why an instruction in IR, once it is decoded (steps 2 to 5), has no register transfers: a reserved word is the model
fault (R201, R203), and `exit` is given none (R112, R248). -/
def stepsStop (s : State) : Option (Host.Outcome State Fault Refusal) :=
  match s.stepNo with
  | .s0 | .s1 => none
  | .s2 | .s3 | .s4 | .s5 =>
    match decode s.latches.ir with
    | .reservedId17 _ _ _ | .reservedId18 _ _ _ | .reservedLtype _ => some (.fault (.reservedEncoding s.latches.ir))
    | .exit => some (.refused .exitHasNoSteps)
    | _ => none

/-- One clock period (R247, R249). -/
def clockPeriod (s : State) : Host.Outcome State Fault Refusal :=
  match stepsStop s with
  | some o => o
  | none =>
    let c := controlSignals s.latches.ir s.stepNo s.latches.rz
    let t := kbdTick s.kbd (s.keyIn 1) (keyboardReadSignal c s)
    match busRead c s t.2, busWrite c s with
    | .error f, _ => .fault f
    | .ok _, .error f => .fault f
    | .ok n, .ok m => .next (latchAll c s n m t.1)

/-- Consecutive clock periods, up to the first that has no next state. -/
def clockPeriods : Nat → State → Host.Outcome State Fault Refusal
  | 0, s => .next s
  | n + 1, s =>
    match clockPeriod s with
    | .next t => clockPeriods n t
    | .fault f => .fault f
    | .refused r => .refused r

end Sys2Proof.Machine
end

