-- ==== Sys2Proof/Machine/Branches.lean ====
section
/-!
DEFINITION. Conditional branches, type 4 (43_branches.md R150 to R157): one shared operation, and one definition per
instruction that names its compare.
-/

namespace Sys2Proof.Machine

/-- Every type 4 instruction (R150): the A operand is field RD, the B operand field RS; taken when the compare
delivers 1; latches by R248, R249. -/
def compareAndBranch (op : AluOp) (i : Instr) (rd rs : Reg) (imm : BitVec 6) (s : State) :
    Host.Outcome State Fault Refusal :=
  let z := aluApply op (s.x rd) (s.x rs)
  let target := if z = 1 then s.nextPc + signedImm imm else s.nextPc
  .next (retire s false ⟨encode i, s.x rd, s.x rs, z, 0, s.x rs⟩ target .r0 0)

/-- `beq rX, rY, LABEL` (R150, R151). -/
def execBeq (rd rs : Reg) (imm : BitVec 6) (s : State) : Host.Outcome State Fault Refusal :=
  compareAndBranch .cmpEq (.beq rd rs imm) rd rs imm s

/-- `bne rX, rY, LABEL` (R150, R152). -/
def execBne (rd rs : Reg) (imm : BitVec 6) (s : State) : Host.Outcome State Fault Refusal :=
  compareAndBranch .cmpNe (.bne rd rs imm) rd rs imm s

/-- `bgt rX, rY, LABEL` (R150, R153). -/
def execBgt (rd rs : Reg) (imm : BitVec 6) (s : State) : Host.Outcome State Fault Refusal :=
  compareAndBranch .cmpGt (.bgt rd rs imm) rd rs imm s

/-- `blt rX, rY, LABEL` (R150, R154). -/
def execBlt (rd rs : Reg) (imm : BitVec 6) (s : State) : Host.Outcome State Fault Refusal :=
  compareAndBranch .cmpLt (.blt rd rs imm) rd rs imm s

end Sys2Proof.Machine
end

