-- ==== Sys2Proof/Machine/ImmediateAlu.lean ====
section
/-!
DEFINITION. The seven register-immediate ALU instructions, types 5 and 6 (44_alu_immediate.md R160 to R168): one shared
operation, and one definition per instruction that names its ALU operation (R139) and its immediate's extension.
-/

namespace Sys2Proof.Machine

/-- Every type 5 or 6 instruction (R160); `b` is the extended immediate; latches by R248, R249. -/
def immediateAlu (op : AluOp) (i : Instr) (rd rs : Reg) (b : Word) (s : State) : Host.Outcome State Fault Refusal :=
  let z := aluApply op (s.x rs) b
  .next (retire s false ⟨encode i, s.x rs, 0, z, z, 0⟩ s.nextPc rd z)

/-- `addi rX, rY, IMM`: sign-extended immediate (R160, R161). -/
def execAddi (rd rs : Reg) (imm : BitVec 6) (s : State) : Host.Outcome State Fault Refusal :=
  immediateAlu .add (.addi rd rs imm) rd rs (signedImm imm) s

/-- `muli rX, rY, IMM`: sign-extended immediate (R160, R162). -/
def execMuli (rd rs : Reg) (imm : BitVec 6) (s : State) : Host.Outcome State Fault Refusal :=
  immediateAlu .mul (.muli rd rs imm) rd rs (signedImm imm) s

/-- `divi rX, rY, IMM`: sign-extended immediate (R160, R163). -/
def execDivi (rd rs : Reg) (imm : BitVec 6) (s : State) : Host.Outcome State Fault Refusal :=
  immediateAlu .div (.divi rd rs imm) rd rs (signedImm imm) s

/-- `andi rX, rY, IMM`: zero-extended immediate (R160, R164). -/
def execAndi (rd rs : Reg) (imm : BitVec 6) (s : State) : Host.Outcome State Fault Refusal :=
  immediateAlu .and (.andi rd rs imm) rd rs (logicalImm imm) s

/-- `ori rX, rY, IMM`: zero-extended immediate (R160, R165). -/
def execOri (rd rs : Reg) (imm : BitVec 6) (s : State) : Host.Outcome State Fault Refusal :=
  immediateAlu .or (.ori rd rs imm) rd rs (logicalImm imm) s

/-- `lsi rX, rY, IMM`: zero-extended immediate (R160, R166). -/
def execLsi (rd rs : Reg) (imm : BitVec 6) (s : State) : Host.Outcome State Fault Refusal :=
  immediateAlu .ls (.lsi rd rs imm) rd rs (logicalImm imm) s

/-- `rsi rX, rY, IMM`: zero-extended immediate (R160, R167). -/
def execRsi (rd rs : Reg) (imm : BitVec 6) (s : State) : Host.Outcome State Fault Refusal :=
  immediateAlu .rs (.rsi rd rs imm) rd rs (logicalImm imm) s

end Sys2Proof.Machine
end

