-- ==== Sys2Proof/Machine/MemoryAccess.lean ====
section
/-!
DEFINITION. Memory access: `stw`, `ldw`, type 3 (42_memory_access.md R140 to R144).
Latch values are those of the register transfers (R248, R249; assumption log 7).
-/

namespace Sys2Proof.Machine

/-- `stw rX, IMM(rY)`: the word of field RD to the effective address; the model fault where nothing can be written,
with nothing written (R141, R63). -/
def execStw (rd rs : Reg) (imm : BitVec 6) (s : State) : Host.Outcome State Fault Refusal :=
  let ea := effectiveAddress s rs imm
  match memWrite s ea (s.x rd) with
  | .error f => .fault f
  | .ok m =>
    .next (retire { s with mem := m } false ⟨encode (.stw rd rs imm), s.x rs, s.x rd, ea, 0, s.x rd⟩ s.nextPc .r0 0)

/-- `ldw rX, IMM(rY)`: the word at the effective address into field RD; at 336 the keyboard is read, also when the
destination is r0 (R142, R143, R62). The memory bus is idle in step 5, when RY loads once more. -/
def execLdw (rd rs : Reg) (imm : BitVec 6) (s : State) : Host.Outcome State Fault Refusal :=
  let ea := effectiveAddress s rs imm
  match memRead s (keyboardRead s) ea with
  | .error f => .fault f
  | .ok v =>
    .next (retire s (decide (regionOf ea = .keyboard))
      ⟨encode (.ldw rd rs imm), s.x rs, 0, ea, Config.busIdle (s.period + 5), 0⟩ s.nextPc rd v)

end Sys2Proof.Machine
end

