-- ==== Sys2Proof/Machine/ProgramControl.lean ====
section
/-!
DEFINITION. Program control: `call`, `ret`, `exit` (40_program_control.md R110 to R114), and the reserved words
(30_encoding.md R90, R91). Latch values are those of the register transfers (R248, R249; assumption log 7).
-/

namespace Sys2Proof.Machine

/-- `call IMM`: the return address pc + 1 into r1, and PC to pc + 1 + offset (R110). RY has no load enable, so in step 5 it
takes PC again, which by then is the target. -/
def execCall (imm : BitVec 11) (s : State) : Host.Outcome State Fault Refusal :=
  let target := s.nextPc + callImm imm
  .next (retire s false ⟨encode (.call imm), 0, 0, Config.aluIdle 0 0, target, 0⟩ target .r1 s.nextPc)

/-- `ret`: PC to x[1], through the ALU's adder with B input 0; its step 5 writes r0 (R111, C10). -/
def execRet (s : State) : Host.Outcome State Fault Refusal :=
  let target := aluAdd (s.x .r1) 0
  .next (retire s false ⟨encode .ret, s.x .r1, 0, target, 0, 0⟩ target .r0 0)

/-- `exit`: the clock stops (R112). With Startup still on the outcome is not defined and the run is outside the model
(R244, U18). -/
def execExit (s : State) : Host.Outcome State Fault Refusal :=
  if s.startup then .refused .exitWithStartupOn else .next (halt s)

/-- A reserved word of ID 17: the model fault (R90). -/
def execReservedId17 (rd rs rt : Reg) (_s : State) : Host.Outcome State Fault Refusal :=
  .fault (.reservedEncoding (encode (.reservedId17 rd rs rt)))

/-- A reserved word of ID 18: the model fault (R90). -/
def execReservedId18 (rd rs rt : Reg) (_s : State) : Host.Outcome State Fault Refusal :=
  .fault (.reservedEncoding (encode (.reservedId18 rd rs rt)))

/-- A reserved L-type word: the model fault (R91). -/
def execReservedLtype (imm : BitVec 11) (_s : State) : Host.Outcome State Fault Refusal :=
  .fault (.reservedEncoding (encode (.reservedLtype imm)))

end Sys2Proof.Machine
end

