-- ==== Sys2Proof/Machine/RegisterAlu.lean ====
section
/-!
DEFINITION. The fourteen register ALU instructions, type 2 (41_alu_register.md R120 to R137): one shared operation,
and one definition per instruction that names its ALU operation.
-/

namespace Sys2Proof.Machine

/-- Every type 2 instruction (R120): both sources read before the destination is written; latches by R248, R249. -/
def registerAlu (op : AluOp) (i : Instr) (rd rs rt : Reg) (s : State) : Host.Outcome State Fault Refusal :=
  let z := aluApply op (s.x rs) (s.x rt)
  .next (retire s false ⟨encode i, s.x rs, s.x rt, z, z, s.x rt⟩ s.nextPc rd z)

/-- `add rD, rS, rT` (R120, R122). -/
def execAdd (rd rs rt : Reg) (s : State) : Host.Outcome State Fault Refusal :=
  registerAlu .add (.add rd rs rt) rd rs rt s

/-- `sub rD, rS, rT` (R120, R123). -/
def execSub (rd rs rt : Reg) (s : State) : Host.Outcome State Fault Refusal :=
  registerAlu .sub (.sub rd rs rt) rd rs rt s

/-- `mul rD, rS, rT` (R120, R124). -/
def execMul (rd rs rt : Reg) (s : State) : Host.Outcome State Fault Refusal :=
  registerAlu .mul (.mul rd rs rt) rd rs rt s

/-- `div rD, rS, rT` (R120, R125). -/
def execDiv (rd rs rt : Reg) (s : State) : Host.Outcome State Fault Refusal :=
  registerAlu .div (.div rd rs rt) rd rs rt s

/-- `pow rD, rS, rT` (R120, R126). -/
def execPow (rd rs rt : Reg) (s : State) : Host.Outcome State Fault Refusal :=
  registerAlu .pow (.pow rd rs rt) rd rs rt s

/-- `mod rD, rS, rT` (R120, R127). -/
def execMod (rd rs rt : Reg) (s : State) : Host.Outcome State Fault Refusal :=
  registerAlu .mod (.mod rd rs rt) rd rs rt s

/-- `and rD, rS, rT` (R120, R128). -/
def execAnd (rd rs rt : Reg) (s : State) : Host.Outcome State Fault Refusal :=
  registerAlu .and (.and rd rs rt) rd rs rt s

/-- `or rD, rS, rT` (R120, R129). -/
def execOr (rd rs rt : Reg) (s : State) : Host.Outcome State Fault Refusal :=
  registerAlu .or (.or rd rs rt) rd rs rt s

/-- `xor rD, rS, rT` (R120, R130). -/
def execXor (rd rs rt : Reg) (s : State) : Host.Outcome State Fault Refusal :=
  registerAlu .xor (.xor rd rs rt) rd rs rt s

/-- `xnor rD, rS, rT` (R120, R131). -/
def execXnor (rd rs rt : Reg) (s : State) : Host.Outcome State Fault Refusal :=
  registerAlu .xnor (.xnor rd rs rt) rd rs rt s

/-- `ls rD, rS, rT` (R120, R132). -/
def execLs (rd rs rt : Reg) (s : State) : Host.Outcome State Fault Refusal :=
  registerAlu .ls (.ls rd rs rt) rd rs rt s

/-- `rs rD, rS, rT` (R120, R133). -/
def execRs (rd rs rt : Reg) (s : State) : Host.Outcome State Fault Refusal :=
  registerAlu .rs (.rs rd rs rt) rd rs rt s

/-- `lr rD, rS, rT` (R120, R134). -/
def execLr (rd rs rt : Reg) (s : State) : Host.Outcome State Fault Refusal :=
  registerAlu .lr (.lr rd rs rt) rd rs rt s

/-- `rr rD, rS, rT` (R120, R135). -/
def execRr (rd rs rt : Reg) (s : State) : Host.Outcome State Fault Refusal :=
  registerAlu .rr (.rr rd rs rt) rd rs rt s

end Sys2Proof.Machine
end

