-- ==== Sys2Proof/Machine/Dispatch.lean ====
section
/-!
DEFINITION. One arm per instruction: the meaning of a whole instruction, from the state in which its step 1 begins
(00_scope.md R12, R13).
-/

namespace Sys2Proof.Machine

def exec (i : Instr) (s : State) : Host.Outcome State Fault Refusal :=
  match i with
  | .call imm => Sys2Proof.Machine.execCall imm s
  | .ret => Sys2Proof.Machine.execRet s
  | .exit => Sys2Proof.Machine.execExit s
  | .add rd rs rt => Sys2Proof.Machine.execAdd rd rs rt s
  | .sub rd rs rt => Sys2Proof.Machine.execSub rd rs rt s
  | .mul rd rs rt => Sys2Proof.Machine.execMul rd rs rt s
  | .div rd rs rt => Sys2Proof.Machine.execDiv rd rs rt s
  | .pow rd rs rt => Sys2Proof.Machine.execPow rd rs rt s
  | .mod rd rs rt => Sys2Proof.Machine.execMod rd rs rt s
  | .and rd rs rt => Sys2Proof.Machine.execAnd rd rs rt s
  | .or rd rs rt => Sys2Proof.Machine.execOr rd rs rt s
  | .xor rd rs rt => Sys2Proof.Machine.execXor rd rs rt s
  | .xnor rd rs rt => Sys2Proof.Machine.execXnor rd rs rt s
  | .ls rd rs rt => Sys2Proof.Machine.execLs rd rs rt s
  | .rs rd rs rt => Sys2Proof.Machine.execRs rd rs rt s
  | .lr rd rs rt => Sys2Proof.Machine.execLr rd rs rt s
  | .rr rd rs rt => Sys2Proof.Machine.execRr rd rs rt s
  | .stw rd rs imm => Sys2Proof.Machine.execStw rd rs imm s
  | .ldw rd rs imm => Sys2Proof.Machine.execLdw rd rs imm s
  | .beq rd rs imm => Sys2Proof.Machine.execBeq rd rs imm s
  | .bne rd rs imm => Sys2Proof.Machine.execBne rd rs imm s
  | .bgt rd rs imm => Sys2Proof.Machine.execBgt rd rs imm s
  | .blt rd rs imm => Sys2Proof.Machine.execBlt rd rs imm s
  | .addi rd rs imm => Sys2Proof.Machine.execAddi rd rs imm s
  | .muli rd rs imm => Sys2Proof.Machine.execMuli rd rs imm s
  | .divi rd rs imm => Sys2Proof.Machine.execDivi rd rs imm s
  | .andi rd rs imm => Sys2Proof.Machine.execAndi rd rs imm s
  | .ori rd rs imm => Sys2Proof.Machine.execOri rd rs imm s
  | .lsi rd rs imm => Sys2Proof.Machine.execLsi rd rs imm s
  | .rsi rd rs imm => Sys2Proof.Machine.execRsi rd rs imm s
  | .reservedId17 rd rs rt => Sys2Proof.Machine.execReservedId17 rd rs rt s
  | .reservedId18 rd rs rt => Sys2Proof.Machine.execReservedId18 rd rs rt s
  | .reservedLtype imm => Sys2Proof.Machine.execReservedLtype imm s

end Sys2Proof.Machine
end

