-- ==== Sys2Proof/Machine/Operator.lean ====
section
/-!
DEFINITION. The controller and the operator's moves (10_state.md R35, R36, R42; 60_exceptions.md R222 to R224;
70_reset_and_hazards.md R240 to R246).
-/

namespace Sys2Proof.Machine

/-- Reset: every internal register, the flags and the keyboard take their reset values at once, memory is kept and an
instruction under way is abandoned (R42, R43, R240). -/
def resetRegisters (s : State) : State :=
  { s with
    regs := .cleared
    pc := 0
    latches := .cleared
    stepNo := .s0
    running := false
    exitFlag := false
    kbd := .cleared }

/-- Start: the running latch is set and the next clock period is step 1 (R242). -/
def startRun (s : State) : State :=
  { s with running := true, stepNo := .s1 }

/-- What the controller does next (R35, R36, R224). -/
inductive RunMode
  /-- Reset is on (R240) -/
  | inReset
  /-- the clock runs but is disengaged, or Startup would start it so (R223) -/
  | disengaged
  /-- Startup is on while Exit = 1 (R245) -/
  | startConflict
  /-- Startup sets the running latch (R242) -/
  | starting
  /-- the clock is stopped (R224) -/
  | stopped
  /-- instructions execute (R36) -/
  | executing
  deriving DecidableEq, Repr

/-- The controller's mode. Instructions execute exactly while Running and Automatic are on and Reset is off (R36).
DESIGN CHOICE (assumption log 19): Startup found on with the latch clear sets it in the next step, so a Startup left on from
before Reset was turned off, or from before Automatic was turned on, starts the run then. -/
def State.runMode (s : State) : RunMode :=
  if s.resetSwitch then .inReset
  else if s.running then (if s.automatic then .executing else .disengaged)
  else if s.startup then
    (if s.exitFlag then .startConflict else if s.automatic then .starting else .disengaged)
  else .stopped

/-- A move of the operator (R222); what a move may not do is in `operate`. -/
inductive OperatorMove
  /-- set the constant combinators of ROM from address 0 on (R52, R222) -/
  | loadRom (image : List Word)
  /-- turn the Reset switch on or off (R240) -/
  | setReset (on : Bool)
  /-- turn the Startup switch on or off (R242) -/
  | setStartup (on : Bool)
  /-- turn the Automatic switch on or off (R223) -/
  | setAutomatic (on : Bool)
  /-- fix the key data of the coming clock periods (R211, R222) -/
  | setKeys (script : List Word)
  deriving DecidableEq, Repr

/-- Startup turned on: the running latch is set at once where the start is defined (R242); while Exit = 1 with the clock
stopped it is not (R245). Under Reset the registers stay held (R240).
DESIGN CHOICE (assumption log 19): with Automatic off the move is accepted and the latch stays clear, so the pulse is lost when
Startup is off again before Automatic is on. The spec leaves open how Running and Automatic are related (N5, R223). -/
def startupOn (s : State) : Host.Outcome State Fault Refusal :=
  let t := { s with startup := true }
  match t.runMode with
  | .starting => .next (startRun t)
  | .startConflict => .refused .startupWhileExit
  | .inReset | .disengaged | .stopped | .executing => .next t

/-- The state after a move of the operator, or the refusal of a move that breaks a duty (R222).
DESIGN CHOICE (assumption log 19): Automatic may be turned off and on again; in between the keyboard keeps Q and KB, which R214
does not state. Reset turned off with Startup on leaves Running 0 until the next step. DESIGN CHOICE (assumption log 10): an
image longer than ROM is cut at its end. -/
def operate (m : OperatorMove) (s : State) : Host.Outcome State Fault Refusal :=
  match m with
  | .loadRom image =>
    if s.running then .refused .romEditedDuringRun
    else .next { s with mem := s.mem.storeAll 0 (image.take Config.romEnd) }
  | .setReset true => .next (resetRegisters { s with resetSwitch := true })
  | .setReset false => .next { s with resetSwitch := false }
  | .setStartup true => startupOn s
  | .setStartup false => .next { s with startup := false }
  | .setAutomatic on => .next { s with automatic := on }
  | .setKeys script =>
    if script.all isKeyData then .next { s with keys := script } else .refused .notAKeyCode

end Sys2Proof.Machine
end

