-- ==== Sys2Proof/Machine/Run.lean ====
section
/-!
DEFINITION. What one step of the model does in each mode of the controller (00_scope.md R12, R13; 10_state.md R36).
-/

namespace Sys2Proof.Machine

/-- One instruction from the boundary before it: fetch, decode, and the instruction's meaning (R12, R64, R94). -/
def runInstruction (s : State) : Host.Outcome State Fault Refusal :=
  match fetch s with
  | .error f => .fault f
  | .ok w => exec (decode w) s

/-- While instructions execute: a whole instruction where one is about to begin (S = 1), one clock period where the
state lies inside an instruction (R33, R247; assumption log 9). -/
def runExecuting (s : State) : Host.Outcome State Fault Refusal :=
  if s.stepNo = .s1 then runInstruction s else clockPeriod s

/-- One step in the controller's mode (R36, R224). A stopped clock changes nothing; Reset holds its values (R240). -/
def runStep (s : State) : Host.Outcome State Fault Refusal :=
  match s.runMode with
  | .inReset => .next (resetRegisters s)
  | .disengaged => .refused .automaticOff
  | .startConflict => .refused .startupWhileExit
  | .starting => .next (startRun s)
  | .stopped => .next s
  | .executing => runExecuting s

end Sys2Proof.Machine
end

