-- ==== Sys2Proof/Machine/Step.lean ====
section
/-!
DEFINITION. The step of the machine, and where the host places an instruction word.
-/

namespace Sys2Proof.Machine

/-- One step (R12, R36, R221). -/
def step (s : State) : Host.Outcome State Fault Refusal := runStep s

/-- `s` with the instruction whose bits are `w` stored where the next fetch reads it, and the processor running at an
instruction boundary, so that the very next step runs it (assumption log 10). -/
def State.withFetchWord (s : State) (nbits w : Nat) : State := placeWord s (placedWord nbits w)

end Sys2Proof.Machine
end

