-- ==== Sys2Proof/Machine/Assembler.lean ====
section
/-!
DEFINITION. The assembler's pseudo-instructions, directives and macros, and the written form of an instruction
(45_pseudo_and_directives.md R170 to R186). Not part of the hardware: nothing here adds machine state.
-/

namespace Sys2Proof.Machine

/-! ### Immediates and label operands (R88, R186, U26) -/

/-- A signed value as a 6-bit field; refused outside -32 to 31 (R88, R186). -/
def asSigned6 (v : Int) : Option (BitVec 6) :=
  if -32 ≤ v ∧ v ≤ 31 then some (BitVec.ofInt 6 v) else none

/-- An unsigned value as a 6-bit field; refused outside 0 to 63 (R88, R186). -/
def asLogical6 (v : Int) : Option (BitVec 6) :=
  if 0 ≤ v ∧ v ≤ 63 then some (BitVec.ofInt 6 v) else none

/-- A signed value as an 11-bit field; refused outside -1024 to 1023 (R88, R186). -/
def asSigned11 (v : Int) : Option (BitVec 11) :=
  if -1024 ≤ v ∧ v ≤ 1023 then some (BitVec.ofInt 11 v) else none

/-- The offset of a label from the instruction at `here` (R186). -/
def labelOffset (here target : Nat) : Int := (target : Int) - ((here : Int) + 1)

/-- A branch's IMM6 for a label (R155, R186). -/
def branchField (here target : Nat) : Option (BitVec 6) := asSigned6 (labelOffset here target)

/-- The IMM11 of a `call` to a label (R186). -/
def callField (here target : Nat) : Option (BitVec 11) := asSigned11 (labelOffset here target)

/-! ### Pseudo-instructions (R171 to R181) -/

/-- The eleven pseudo-instructions; a label operand is given as its offset (R186). -/
inductive Pseudo
  | mov (rX rY : Reg)
  | movi (rX : Reg) (imm : Int)
  | moviu (rX : Reg) (imm : Int)
  | movia (rX : Reg) (v : Int)
  | subi (rX rY : Reg) (imm : Int)
  | bge (rX rY : Reg) (off : Int)
  | ble (rX rY : Reg) (off : Int)
  | brz (rX : Reg) (off : Int)
  | bnz (rX : Reg) (off : Int)
  | br (off : Int)
  | nop
  deriving DecidableEq, Repr

/-- The three instructions of `movia`, for the operand's value reduced to 12 bits (R174, C5). -/
def expandMovia (rX : Reg) (v : BitVec 12) : List Instr :=
  [.ori rX .r0 (v.extractLsb' 6 6), .lsi rX rX 6#6, .ori rX rX (v.extractLsb' 0 6)]

/-- The "Actual Implementation" of a pseudo-instruction; none where an immediate is out of its field's range, which is an
error of the program text (R171 to R181, R186, U26). DESIGN CHOICE (assumption log 14): `movia` accepts every integer and
reduces it to 12 bits, beyond the operand range -1024 to 1023 that C5 keeps; and `movia` with rX = r0, which R174 says must
not be used, expands to its three words as well and is not refused. -/
def expand : Pseudo → Option (List Instr)
  | .mov rX rY => some [.add rX .r0 rY]
  | .movi rX imm => (asSigned6 imm).map fun f => [.addi rX .r0 f]
  | .moviu rX imm => (asLogical6 imm).map fun f => [.ori rX .r0 f]
  | .movia rX v => some (expandMovia rX (BitVec.ofInt 12 v))
  | .subi rX rY imm => (asSigned6 (-imm)).map fun f => [.addi rX rY f]
  | .bge rX rY off => (asSigned6 off).map fun f => [.blt rY rX f]
  | .ble rX rY off => (asSigned6 off).map fun f => [.bgt rY rX f]
  | .brz rX off => (asSigned6 off).map fun f => [.beq rX .r0 f]
  | .bnz rX off => (asSigned6 off).map fun f => [.bne rX .r0 f]
  | .br off => (asSigned6 off).map fun f => [.beq .r0 .r0 f]
  | .nop => some [.add .r0 .r0 .r0]

/-- The words of a pseudo-instruction (R95, R171 to R181). -/
def assemblePseudo (p : Pseudo) : Option (List Word) := (expand p).map fun is => is.map encode

/-! ### Directives and macros (R183 to R185, D19; assumption log 14) -/

/-- `.asciz`: one ROM word per upper-cased character, then one word 0 (R183). DESIGN CHOICE (assumption log 14): a character
outside ASCII, of which R183 does not speak, gives the low 16 bits of its code. -/
def asciz (text : List Char) : List Word :=
  text.map (fun c => BitVec.ofNat 16 c.toUpper.toNat) ++ [0]

/-- `.malloc` directives in order: the address each label gets, allocating upward from `start` (R184). -/
def mallocFrom (start : Nat) : List Nat → List Nat
  | [] => []
  | n :: ns => start :: mallocFrom (start + n) ns

/-- The addresses of a program's `.malloc` labels: from 256 upward (R184). DESIGN CHOICE (assumption log 14): where the amounts
exceed the 64 words of RAM the count goes on past 319 and nothing is refused, so a label may name a display or unmapped address. -/
def malloc (amounts : List Nat) : List Nat := mallocFrom Config.romEnd amounts

/-- `LAST_RAM_WORD` (R185, C2). -/
def lastRamWord : Nat := 320
/-- `CHAR_OUT_LOC` (R185). -/
def charOutLoc : Nat := 320
/-- `CHAR_IN_LOC` (R185). -/
def charInLoc : Nat := 336

/-! ### Written form (R170) -/

/-- The register an assembler name stands for; `ra` is r1, `sp` is r7 (R170). -/
def regOfName (n : String) : Option Reg :=
  if n = "r0" then some .r0
  else if n = "r1" ∨ n = "ra" then some .r1
  else if n = "r2" then some .r2
  else if n = "r3" then some .r3
  else if n = "r4" then some .r4
  else if n = "r5" then some .r5
  else if n = "r6" then some .r6
  else if n = "r7" ∨ n = "sp" then some .r7
  else none

/-- A register as written (R170). -/
def regName : Reg → String
  | .r0 => "r0"
  | .r1 => "r1"
  | .r2 => "r2"
  | .r3 => "r3"
  | .r4 => "r4"
  | .r5 => "r5"
  | .r6 => "r6"
  | .r7 => "r7"

/-- The operand shape `rX, rY, rZ` (R170). -/
def showRegs (rd rs rt : Reg) : String := " " ++ regName rd ++ ", " ++ regName rs ++ ", " ++ regName rt

/-- The operand shape `rX, IMM(rY)` (R170). -/
def showMem (rd rs : Reg) (imm : BitVec 6) : String :=
  " " ++ regName rd ++ ", " ++ toString (sext6 imm) ++ "(" ++ regName rs ++ ")"

/-- The operand shape `rX, rY, IMM`, and `rX, rY, LABEL` with the offset for the label (R170, R186). -/
def showImm (rd rs : Reg) (imm : Int) : String := " " ++ regName rd ++ ", " ++ regName rs ++ ", " ++ toString imm

/-- The operands of an instruction as written (R170). -/
def showOperands : Instr → String
  | .call imm => " " ++ toString (sext11 imm)
  | .ret | .exit | .reservedLtype _ => ""
  | .add rd rs rt | .sub rd rs rt | .mul rd rs rt | .div rd rs rt | .pow rd rs rt | .mod rd rs rt | .and rd rs rt
  | .or rd rs rt | .xor rd rs rt | .xnor rd rs rt | .ls rd rs rt | .rs rd rs rt | .lr rd rs rt | .rr rd rs rt =>
    showRegs rd rs rt
  | .stw rd rs imm | .ldw rd rs imm => showMem rd rs imm
  | .beq rd rs imm | .bne rd rs imm | .bgt rd rs imm | .blt rd rs imm | .addi rd rs imm | .muli rd rs imm
  | .divi rd rs imm => showImm rd rs (sext6 imm)
  | .andi rd rs imm | .ori rd rs imm | .lsi rd rs imm | .rsi rd rs imm => showImm rd rs (zext6 imm)
  | .reservedId17 _ _ _ | .reservedId18 _ _ _ => ""

/-- An instruction as an assembly listing writes it (R170). -/
def showInstr (i : Instr) : String := i.mnemonic ++ showOperands i

end Sys2Proof.Machine
end

