-- ==== Sys2Proof/Machine/Flags.lean ====
section
/-!
DEFINITION. The five flags (10_state.md R35, 70_reset_and_hazards.md R243). The processor has no condition codes
(R35): no instruction computes a flag, and what the source calls flags are these status signals of the controller.
-/

namespace Sys2Proof.Machine

/-- The colours of the lights (R35). -/
inductive Colour
  | green | yellow | red
  deriving DecidableEq, Repr

/-- The five lights, left to right (R35). -/
structure Lights where
  exit : Colour
  startup : Colour
  reset : Colour
  running : Colour
  automatic : Colour
  deriving DecidableEq, Repr

/-- What the lights show (R35). -/
def State.lights (s : State) : Lights where
  exit := if s.exitFlag then .red else .green
  startup := if s.startup then .yellow else .green
  reset := if s.resetSwitch then .red else .green
  running := if s.running then .green else .red
  automatic := if s.automatic then .green else .red

/-- The standard flag configurations 1 to 5 (R243). -/
def standardConfiguration (n : Fin 5) : Lights :=
  match n.val with
  | 0 => ⟨.green, .green, .green, .red, .green⟩
  | 1 => ⟨.green, .yellow, .green, .green, .green⟩
  | 2 => ⟨.green, .green, .green, .green, .green⟩
  | 3 => ⟨.red, .green, .green, .red, .green⟩
  | _ => ⟨.green, .green, .red, .red, .green⟩

end Sys2Proof.Machine
end

