-- ==== Sys2Proof/Machine/Panel.lean ====
section
/-!
DEFINITION. What the operator sees beside the lights: the lamps of r1 to r7 (10_state.md R41) and the sixteen display
positions (60_exceptions.md R209). Outputs only: nothing here changes state.
-/

namespace Sys2Proof.Machine

/-- The values of r1 to r7 that the lamps show at all times (R41). -/
def State.lamps (s : State) : List Word :=
  [s.x .r1, s.x .r2, s.x .r3, s.x .r4, s.x .r5, s.x .r6, s.x .r7]

/-- The word of display position `i` (R54, R209). -/
def State.displayWord (s : State) (i : Fin 16) : Word := s.word (Config.ramEnd + i.val)

/-- What display position `i` shows: the glyph of its word (R209, D21). -/
def State.shown (s : State) (i : Fin 16) : BitVec 25 := Config.glyph (s.displayWord i)

end Sys2Proof.Machine
end

