-- ==== Sys2Proof/Safety.lean ====
section
/-!
DEFINITION. What counts as a good state and a good run, and the words in which statements say what an instruction
leaves alone (10_state.md R36; 60_exceptions.md R213, R216; 70_reset_and_hazards.md R240, R254).
-/

namespace Sys2Proof.Machine

/-! ### The controller -/

/-- Instructions execute: Running = 1, Automatic = 1, Reset = 0 (R36). -/
def Executing (s : State) : Prop := s.resetSwitch = false ∧ s.running = true ∧ s.automatic = true

/-- An instruction is about to begin: step 1 is the next clock period (R33, R247). -/
def AtBoundary (s : State) : Prop := s.stepNo = .s1

/-- The run has ended successfully (R254). -/
def Ended (s : State) : Prop := s.exitFlag = true ∧ s.running = false

/-! ### The invariant -/

/-- The buffer is nonzero only in state 3, and there it is (R213, R215). -/
def BufferHoldsKeyInState3 (k : Keyboard) : Prop := k.kb ≠ 0 ↔ k.q = .waitRead

/-- What every reachable state satisfies. -/
structure Inv (s : State) : Prop where
  /-- memory is in canonical form and holds ROM, RAM and display words only (R51) -/
  memory : s.mem.wf = true
  /-- the key buffer is nonzero exactly in state 3 (R213, R215) -/
  buffer : BufferHoldsKeyInState3 s.kbd
  /-- the key buffer holds 0 or a key code (R216 (a)) -/
  bufferLegal : isKeyData s.kbd.kb = true
  /-- the environment puts only 0 and key codes on the key data input (R211) -/
  keysLegal : s.keys.all isKeyData = true
  /-- a processor that has reached `exit` does not run (R112, R254) -/
  exitStops : s.exitFlag = true → s.running = false
  /-- while the clock runs the step counter names a step (R33, R242) -/
  stepNamed : s.running = true → s.stepNo ≠ .s0
  /-- while Reset is on the state is held at its reset values (R240) -/
  resetHeld : s.resetSwitch = true → resetRegisters s = s

/-- The states the machine and its operator can bring about from the reset state (R221, R222, R254). -/
inductive Reachable : State → Prop
  | reset : Reachable State.reset
  | step {s t : State} : Reachable s → step s = .next t → Reachable t
  | operate {s t : State} (m : OperatorMove) : Reachable s → operate m s = .next t → Reachable t

/-! ### Frames -/

/-- Every general register but `d` is unchanged; with `d = r0` every register is, for r0 reads 0 (R22). -/
def RegsSameBut (d : Reg) (s t : State) : Prop := ∀ r, r ≠ d → t.x r = s.x r

/-- Every word of memory is unchanged. -/
def MemorySame (s t : State) : Prop := ∀ a, t.word a = s.word a

/-- Every word of memory but the one at `ea` is unchanged. -/
def MemorySameBut (ea : Word) (s t : State) : Prop := ∀ a, a ≠ ea.toNat → t.word a = s.word a

/-- What every completed instruction but `exit` does alike: the flags and switches are unchanged, S is 1 again, and the
keyboard and its input have gone through five clock periods (R35, R218, R250). -/
structure FiveSteps (isRead : Bool) (s t : State) : Prop where
  running : t.running = s.running
  exitFlag : t.exitFlag = s.exitFlag
  startup : t.startup = s.startup
  resetSwitch : t.resetSwitch = s.resetSwitch
  automatic : t.automatic = s.automatic
  stepNo : t.stepNo = .s1
  kbd : t.kbd = (kbdInstr s isRead).1
  keys : t.keys = s.keys.drop 5
  period : t.period = s.period + 5

/-- An instruction that completes, puts `v` into register `d` (nowhere when `d` is r0), goes on at `target`, and leaves
every other register, all of memory, the flags and the switches unchanged. -/
def CompletesWith (o : Host.Outcome State Fault Refusal) (s : State) (d : Reg) (v target : Word) : Prop :=
  ∃ t, o = .next t ∧ t.x d = (if d = .r0 then 0 else v) ∧ t.pc = target ∧
    RegsSameBut d s t ∧ MemorySame s t ∧ FiveSteps false s t

/-- The meanings of a list of instructions one after another, up to the first that has no next state. -/
def execAll : List Instr → State → Host.Outcome State Fault Refusal
  | [], s => .next s
  | i :: is, s =>
    match exec i s with
    | .next t => execAll is t
    | .fault f => .fault f
    | .refused r => .refused r

end Sys2Proof.Machine
end

