-- ==== Sys2Proof/Certificates/Slice0/Obligations.lean ====
section
/-!
DEFINITION. The statements for the provers. Frames and invariants are those of Sys2Proof/Safety.lean. "Log n" is
notes/assumptions/n.md; a statement that rests on a decision of spec/92_eei_decisions.md (D) or on a passage from general
knowledge (G) says so.
-/

open Sys2Proof Sys2Proof.Machine

/-! ### Encoding -/

/-- R94, R95: decoding the word of a well-formed instruction gives it back, every operand at every value. -/
def Obligations.EncodeThenDecodeIsIdentity : Prop :=
  ∀ i : Instr, i.wf = true → decode (encode i) = i

/-- R94, R95: every one of the 65536 words is the word of the one well-formed instruction it decodes to. -/
def Obligations.DecodeThenEncodeIsIdentity : Prop :=
  ∀ w : Word, encode (decode w) = w ∧ (decode w).wf = true

/-- R96: under first match every word selects a row, and it is the row of the instruction the decoder reads; two different
rows that match one word involve the last row, so the order matters nowhere else. -/
def Obligations.DecodeIsTheFirstMatchingRow : Prop :=
  (∀ w : Word, ∃ r, firstRow w = some r ∧ r.mnemonic = (decode w).mnemonic) ∧
  (∀ (w : Word), ∀ r ∈ opcodeRows, ∀ r' ∈ opcodeRows, w &&& r.mask = r.bits → w &&& r'.mask = r'.bits →
    r = r' ∨ r.mnemonic = "reserved.ltype" ∨ r'.mnemonic = "reserved.ltype")

/-- R87: the ID by the formula on the word's low bits, and the ID and Type columns of the table. -/
def Obligations.IdAndTypeFollowTheTable : Prop :=
  ∀ w : Word,
    (w.toNat % 16 = 0 → decoderId w = 1 + w.toNat / 16 % 2) ∧
    (w.toNat % 16 = 1 → decoderId w = 3 + w.toNat / 16 % 8) ∧
    (w.toNat % 16 = 2 → decoderId w = 11 + w.toNat / 16 % 8) ∧
    (3 ≤ w.toNat % 16 → decoderId w = 16 + w.toNat % 16) ∧
    decoderId w = (decode w).id ∧ decoderType w = (decode w).type

/-- R89: words written out from the encoding tables decode to the instructions they stand for. -/
def Obligations.WrittenWordsDecode : Prop :=
  decode 0b1000000000010000 = .exit ∧ decode 0b0000000000010000 = .ret ∧
  decode 0b1111111111100000 = .call (-1) ∧ decode 0b0100111000000001 = .add .r2 .r3 .r4 ∧
  decode 0b1111111111010010 = .rr .r7 .r7 .r7 ∧ decode 0b0101111111110011 = .stw .r2 .r7 (-1) ∧
  decode 0b0001001000110100 = .ldw .r0 .r4 (-29) ∧ decode 0b0100001111010110 = .bne .r2 .r0 (-3) ∧
  decode 0b0100001000001001 = .addi .r2 .r0 (-32) ∧ decode 0b1010101111001101 = .ori .r5 .r2 60

/-! ### One step -/

/-- R36, R64, R94: where instructions execute and one is about to begin, a step is the meaning of the instruction that the
ROM word at PC decodes to, and nothing is added around it; inside an instruction (log 9) a step is one clock period. -/
def Obligations.StepRunsTheDecodedInstruction : Prop :=
  ∀ s : State, Executing s →
    (∀ i : Instr, AtBoundary s → s.pc.toNat < 256 → i.wf = true → decode (s.word s.pc.toNat) = i →
      step s = exec i s) ∧
    (¬AtBoundary s → step s = clockPeriod s)

/-- R64 (its decision D3): a fetch with PC above 255 is the model fault. -/
def Obligations.FetchOutsideRomFaults : Prop :=
  ∀ s : State, Executing s → AtBoundary s → 256 ≤ s.pc.toNat → step s = .fault (.fetchOutsideROM s.pc)

/-- R90, R91 (decisions D4, D5): the three reserved rows stop with the model fault and record the word. -/
def Obligations.ReservedRowsFault : Prop :=
  ∀ s : State,
    (∀ rd rs rt, exec (.reservedId17 rd rs rt) s = .fault (.reservedEncoding (encode (.reservedId17 rd rs rt)))) ∧
    (∀ rd rs rt, exec (.reservedId18 rd rs rt) s = .fault (.reservedEncoding (encode (.reservedId18 rd rs rt)))) ∧
    (∀ imm, exec (.reservedLtype imm) s = .fault (.reservedEncoding (encode (.reservedLtype imm))))

/-- R90, R91, R201 (decisions D4, D5): executing a word whose low seven bits are 1100010 or 1110010, or whose low five bits
are 10000 and that is neither 0x0010 nor 0x8010, is the model fault with that word. -/
def Obligations.ReservedWordsStopTheRun : Prop :=
  ∀ (s : State) (w : Word), Executing s → AtBoundary s → s.pc.toNat < 256 → s.word s.pc.toNat = w →
    (w.toNat % 128 = 98 ∨ w.toNat % 128 = 114 ∨ (w.toNat % 32 = 16 ∧ w ≠ 0x0010 ∧ w ≠ 0x8010)) →
    step s = .fault (.reservedEncoding w)

/-! ### Program control -/

/-- R110 (wrap by D2): `call` puts pc + 1 into r1 and goes to pc + 1 plus the sign-extended immediate. -/
def Obligations.CallLinksAndJumps : Prop :=
  ∀ (imm : BitVec 11) (s : State),
    CompletesWith (exec (.call imm) s) s .r1 (s.pc + 1) (BitVec.ofInt 16 ((s.pc.toNat : Int) + 1 + imm.toInt))

/-- R111: `ret` goes to x[1] and writes no register. -/
def Obligations.RetJumpsToTheLinkRegister : Prop :=
  ∀ s : State, CompletesWith (exec .ret s) s .r0 0 (s.x .r1)

/-- R112, R254 (decision D7, log 8): with Startup off `exit` sets Exit, clears Running and leaves registers, memory, keyboard
and switches as they were; PC is pc + 1 or x[1]. -/
def Obligations.ExitEndsTheRun : Prop :=
  ∀ s : State, s.startup = false → ∃ t, exec .exit s = .next t ∧ Ended t ∧ (∀ r, t.x r = s.x r) ∧ MemorySame s t ∧
    t.kbd = s.kbd ∧ t.keys = s.keys ∧ t.startup = s.startup ∧ t.resetSwitch = s.resetSwitch ∧
    t.automatic = s.automatic ∧ (t.pc = s.pc + 1 ∨ t.pc = s.x .r1)

/-! ### Register ALU -/

/-- R120, R122 to R124 (D1): `add`, `sub`, `mul` are the wrapping 16-bit operations, with the sources read first. -/
def Obligations.AddSubMulWrap : Prop :=
  ∀ (rd rs rt : Reg) (s : State),
    CompletesWith (exec (.add rd rs rt) s) s rd (s.x rs + s.x rt) (s.pc + 1) ∧
    CompletesWith (exec (.sub rd rs rt) s) s rd (s.x rs - s.x rt) (s.pc + 1) ∧
    CompletesWith (exec (.mul rd rs rt) s) s rd (s.x rs * s.x rt) (s.pc + 1)

/-- R125, R127 (G3, G5, log 12): with a nonzero divisor `div` is signed division rounding toward zero and `mod` its remainder;
R137 (log 6): with divisor 0 both complete with the open parameters' words. -/
def Obligations.DivModTruncate : Prop :=
  ∀ (rd rs rt : Reg) (s : State),
    (s.x rt ≠ 0 →
      CompletesWith (exec (.div rd rs rt) s) s rd ((s.x rs).sdiv (s.x rt)) (s.pc + 1) ∧
      CompletesWith (exec (.mod rd rs rt) s) s rd ((s.x rs).srem (s.x rt)) (s.pc + 1)) ∧
    (s.x rt = 0 →
      CompletesWith (exec (.div rd rs rt) s) s rd (Config.divZero (s.x rs)) (s.pc + 1) ∧
      CompletesWith (exec (.mod rd rs rt) s) s rd (Config.modZero (s.x rs)) (s.pc + 1))

/-- R126, R137 (G4, log 6, log 12): `pow` in its three cases: exact power that fits 32 signed bits, exact power that does not,
negative exponent. -/
def Obligations.PowerCases : Prop :=
  ∀ (rd rs rt : Reg) (s : State),
    (∀ n : Nat, (s.x rt).toInt = n → -2 ^ 31 ≤ (s.x rs).toInt ^ n → (s.x rs).toInt ^ n ≤ 2 ^ 31 - 1 →
      CompletesWith (exec (.pow rd rs rt) s) s rd (BitVec.ofInt 16 ((s.x rs).toInt ^ n)) (s.pc + 1)) ∧
    (∀ n : Nat, (s.x rt).toInt = n → ((s.x rs).toInt ^ n < -2 ^ 31 ∨ 2 ^ 31 - 1 < (s.x rs).toInt ^ n) →
      CompletesWith (exec (.pow rd rs rt) s) s rd (Config.powOvf (s.x rs) (s.x rt)) (s.pc + 1)) ∧
    ((s.x rt).toInt < 0 →
      CompletesWith (exec (.pow rd rs rt) s) s rd (Config.powNeg (s.x rs) (s.x rt)) (s.pc + 1))

/-- R128 to R131 (G6): the bitwise operations; `xnor` is the complement of the exclusive OR. -/
def Obligations.BitwiseOperations : Prop :=
  ∀ (rd rs rt : Reg) (s : State),
    CompletesWith (exec (.and rd rs rt) s) s rd (s.x rs &&& s.x rt) (s.pc + 1) ∧
    CompletesWith (exec (.or rd rs rt) s) s rd (s.x rs ||| s.x rt) (s.pc + 1) ∧
    CompletesWith (exec (.xor rd rs rt) s) s rd (s.x rs ^^^ s.x rt) (s.pc + 1) ∧
    CompletesWith (exec (.xnor rd rs rt) s) s rd (~~~(s.x rs ^^^ s.x rt)) (s.pc + 1)

/-- R132, R133 (G7, log 12): amounts 0 to 31 shift left with zeros and right with the sign; R137 (log 6): other amounts
complete with the open parameters' words. -/
def Obligations.ShiftsByRegister : Prop :=
  ∀ (rd rs rt : Reg) (s : State),
    ((s.x rt).toNat ≤ 31 →
      CompletesWith (exec (.ls rd rs rt) s) s rd (s.x rs <<< (s.x rt).toNat) (s.pc + 1) ∧
      CompletesWith (exec (.rs rd rs rt) s) s rd ((s.x rs).sshiftRight (s.x rt).toNat) (s.pc + 1)) ∧
    (32 ≤ (s.x rt).toNat →
      CompletesWith (exec (.ls rd rs rt) s) s rd (Config.shlOor (s.x rs) (s.x rt)) (s.pc + 1) ∧
      CompletesWith (exec (.rs rd rs rt) s) s rd (Config.shrOor (s.x rs) (s.x rt)) (s.pc + 1))

/-- R134, R135 (decision D13, log 13): amounts 0 to 15 rotate the 16-bit word; R137 (log 6): other amounts complete with the open
parameters' words. -/
def Obligations.RotatesByRegister : Prop :=
  ∀ (rd rs rt : Reg) (s : State),
    ((s.x rt).toNat ≤ 15 →
      CompletesWith (exec (.lr rd rs rt) s) s rd ((s.x rs).rotateLeft (s.x rt).toNat) (s.pc + 1) ∧
      CompletesWith (exec (.rr rd rs rt) s) s rd ((s.x rs).rotateRight (s.x rt).toNat) (s.pc + 1)) ∧
    (16 ≤ (s.x rt).toNat →
      CompletesWith (exec (.lr rd rs rt) s) s rd (Config.rolOor (s.x rs) (s.x rt)) (s.pc + 1) ∧
      CompletesWith (exec (.rr rd rs rt) s) s rd (Config.rorOor (s.x rs) (s.x rt)) (s.pc + 1))

/-! ### Register-immediate ALU -/

/-- R161: the encoding, the range, the sum and the three examples of `addi`. -/
def Obligations.AddImmediate : Prop :=
  (∀ (rd rs : Reg) (imm : BitVec 6), encode (.addi rd rs imm) = rd.bits ++ rs.bits ++ imm ++ 0b1001#4) ∧
  (∀ imm : BitVec 6, -32 ≤ imm.toInt ∧ imm.toInt ≤ 31) ∧
  (∀ (rd rs : Reg) (imm : BitVec 6) (s : State),
    CompletesWith (exec (.addi rd rs imm) s) s rd (BitVec.ofInt 16 ((s.x rs).toInt + imm.toInt)) (s.pc + 1)) ∧
  encode (.addi .r2 .r3 (-1)) = 0x4FF9 ∧ encode (.addi .r2 .r0 5) = 0x4059 ∧ encode (.addi .r2 .r0 (-32)) = 0x4209

/-- R162: the encoding, the range, the product and the example of `muli`. -/
def Obligations.MultiplyImmediate : Prop :=
  (∀ (rd rs : Reg) (imm : BitVec 6), encode (.muli rd rs imm) = rd.bits ++ rs.bits ++ imm ++ 0b1010#4) ∧
  (∀ imm : BitVec 6, -32 ≤ imm.toInt ∧ imm.toInt ≤ 31) ∧
  (∀ (rd rs : Reg) (imm : BitVec 6) (s : State),
    CompletesWith (exec (.muli rd rs imm) s) s rd (BitVec.ofInt 16 ((s.x rs).toInt * imm.toInt)) (s.pc + 1)) ∧
  encode (.muli .r2 .r2 10) = 0x48AA ∧ BitVec.ofInt 16 (7 * 10) = 70#16 ∧ BitVec.ofInt 16 (7000 * 10) = 0x1170#16

/-- R163 (G3, log 12; log 6 for divisor 0): `divi` divides by the sign-extended immediate, rounding toward zero. -/
def Obligations.DivideImmediate : Prop :=
  ∀ (rd rs : Reg) (imm : BitVec 6) (s : State),
    (imm ≠ 0 → CompletesWith (exec (.divi rd rs imm) s) s rd ((s.x rs).sdiv (imm.signExtend 16)) (s.pc + 1)) ∧
    (imm = 0 → CompletesWith (exec (.divi rd rs imm) s) s rd (Config.divZero (s.x rs)) (s.pc + 1))

/-- R164, R165: the encodings, the operations with the zero-extended immediate, what becomes of bits 15 to 6, and the
examples of `andi` and `ori`. -/
def Obligations.AndOrImmediate : Prop :=
  (∀ (rd rs : Reg) (imm : BitVec 6),
    encode (.andi rd rs imm) = rd.bits ++ rs.bits ++ imm ++ 0b1100#4 ∧
    encode (.ori rd rs imm) = rd.bits ++ rs.bits ++ imm ++ 0b1101#4) ∧
  (∀ (rd rs : Reg) (imm : BitVec 6) (s : State),
    CompletesWith (exec (.andi rd rs imm) s) s rd (s.x rs &&& imm.zeroExtend 16) (s.pc + 1) ∧
    CompletesWith (exec (.ori rd rs imm) s) s rd (s.x rs ||| imm.zeroExtend 16) (s.pc + 1)) ∧
  (∀ (a : Word) (imm : BitVec 6),
    (a &&& imm.zeroExtend 16).extractLsb' 6 10 = 0 ∧
    (a ||| imm.zeroExtend 16).extractLsb' 6 10 = a.extractLsb' 6 10) ∧
  encode (.andi .r2 .r3 63) = 0x4FFC ∧ 0xABCD#16 &&& 63#16 = 0x000D#16 ∧
  encode (.ori .r2 .r0 63) = 0x43FD ∧
  (∀ (imm : BitVec 6) (rd : Reg) (s : State),
    CompletesWith (exec (.ori rd .r0 imm) s) s rd (imm.zeroExtend 16) (s.pc + 1))

/-- R166, R167 (G7, log 12): immediates 0 to 31 shift left with zeros and right with the sign; R137 (log 6): immediates 32 to 63
complete with the open parameters' words. -/
def Obligations.ShiftsByImmediate : Prop :=
  ∀ (rd rs : Reg) (imm : BitVec 6) (s : State),
    (imm.toNat ≤ 31 →
      CompletesWith (exec (.lsi rd rs imm) s) s rd (s.x rs <<< imm.toNat) (s.pc + 1) ∧
      CompletesWith (exec (.rsi rd rs imm) s) s rd ((s.x rs).sshiftRight imm.toNat) (s.pc + 1)) ∧
    (32 ≤ imm.toNat →
      CompletesWith (exec (.lsi rd rs imm) s) s rd (Config.shlOor (s.x rs) (imm.zeroExtend 16)) (s.pc + 1) ∧
      CompletesWith (exec (.rsi rd rs imm) s) s rd (Config.shrOor (s.x rs) (imm.zeroExtend 16)) (s.pc + 1))

/-! ### Branches -/

/-- R151, R152: encodings, taken exactly on equal (`beq`) or unequal (`bne`) words, always taken with both operands r0, and
the examples. -/
def Obligations.EqualityBranches : Prop :=
  (∀ (rd rs : Reg) (imm : BitVec 6),
    encode (.beq rd rs imm) = rd.bits ++ rs.bits ++ imm ++ 0b0101#4 ∧
    encode (.bne rd rs imm) = rd.bits ++ rs.bits ++ imm ++ 0b0110#4) ∧
  (∀ (rd rs : Reg) (imm : BitVec 6) (s : State),
    CompletesWith (exec (.beq rd rs imm) s) s .r0 0
      (if s.x rd = s.x rs then BitVec.ofInt 16 ((s.pc.toNat : Int) + 1 + imm.toInt) else s.pc + 1) ∧
    CompletesWith (exec (.bne rd rs imm) s) s .r0 0
      (if s.x rd ≠ s.x rs then BitVec.ofInt 16 ((s.pc.toNat : Int) + 1 + imm.toInt) else s.pc + 1)) ∧
  (∀ (imm : BitVec 6) (s : State),
    CompletesWith (exec (.beq .r0 .r0 imm) s) s .r0 0 (BitVec.ofInt 16 ((s.pc.toNat : Int) + 1 + imm.toInt))) ∧
  encode (.beq .r4 .r0 4) = 0x8045 ∧ encode (.bne .r2 .r0 (-3)) = 0x43D6

/-- R153, R154 (signedness by G13, log 12): `bgt` and `blt` compare the words as signed numbers and are not taken on equal ones. -/
def Obligations.OrderBranches : Prop :=
  ∀ (rd rs : Reg) (imm : BitVec 6) (s : State),
    CompletesWith (exec (.bgt rd rs imm) s) s .r0 0
      (if (s.x rs).slt (s.x rd) then BitVec.ofInt 16 ((s.pc.toNat : Int) + 1 + imm.toInt) else s.pc + 1) ∧
    CompletesWith (exec (.blt rd rs imm) s) s .r0 0
      (if (s.x rd).slt (s.x rs) then BitVec.ofInt 16 ((s.pc.toNat : Int) + 1 + imm.toInt) else s.pc + 1)

/-! ### Memory access -/

/-- R140, R61 (sign extension by C4, log 15), R141, R63 (decisions D8, D9): the effective address of `stw` is the base plus the
sign-extended offset, modulo 65536. By it RAM and display take the word and nothing else changes in memory; a ROM address
changes nothing; 336 and above is the model fault. -/
def Obligations.StoreByAddress : Prop :=
  ∀ (rd rs : Reg) (imm : BitVec 6) (s : State),
    effectiveAddress s rs imm = BitVec.ofInt 16 ((s.x rs).toInt + imm.toInt) ∧
    ((effectiveAddress s rs imm).toNat < 256 →
      CompletesWith (exec (.stw rd rs imm) s) s .r0 0 (s.pc + 1)) ∧
    (256 ≤ (effectiveAddress s rs imm).toNat → (effectiveAddress s rs imm).toNat < 336 →
      ∃ t, exec (.stw rd rs imm) s = .next t ∧ t.word (effectiveAddress s rs imm).toNat = s.x rd ∧
        MemorySameBut (effectiveAddress s rs imm) s t ∧ RegsSameBut .r0 s t ∧ t.pc = s.pc + 1 ∧ FiveSteps false s t) ∧
    (336 ≤ (effectiveAddress s rs imm).toNat →
      exec (.stw rd rs imm) s = .fault (.unmappedAccess (effectiveAddress s rs imm)))

/-- R140, R61 (sign extension by C4, log 15), R142, R143, R62 (decisions D8, D10): the effective address of `ldw` is the base plus
the sign-extended offset, modulo 65536. By it `ldw` loads the word of ROM, RAM or display; at 336 the word the keyboard
presents, the keyboard being read also when the destination is r0; above 336 it is the model fault. -/
def Obligations.LoadByAddress : Prop :=
  ∀ (rd rs : Reg) (imm : BitVec 6) (s : State),
    effectiveAddress s rs imm = BitVec.ofInt 16 ((s.x rs).toInt + imm.toInt) ∧
    ((effectiveAddress s rs imm).toNat < 336 →
      CompletesWith (exec (.ldw rd rs imm) s) s rd (s.word (effectiveAddress s rs imm).toNat) (s.pc + 1)) ∧
    ((effectiveAddress s rs imm).toNat = 336 →
      ∃ t, exec (.ldw rd rs imm) s = .next t ∧ t.x rd = (if rd = .r0 then 0 else keyboardRead s) ∧
        RegsSameBut rd s t ∧ MemorySame s t ∧ t.pc = s.pc + 1 ∧ FiveSteps true s t) ∧
    (337 ≤ (effectiveAddress s rs imm).toNat →
      exec (.ldw rd rs imm) s = .fault (.unmappedAccess (effectiveAddress s rs imm)))

/-- R65: a load right after a store to the same RAM or display address returns the word stored. For the display, 320 to 335, this
is the spec's decision D10 (log 15). -/
def Obligations.LoadReturnsTheWordStored : Prop :=
  ∀ (rd rs rd' rs' : Reg) (imm imm' : BitVec 6) (s t : State),
    256 ≤ (effectiveAddress s rs imm).toNat → (effectiveAddress s rs imm).toNat < 336 →
    exec (.stw rd rs imm) s = .next t → effectiveAddress t rs' imm' = effectiveAddress s rs imm →
    CompletesWith (exec (.ldw rd' rs' imm') t) t rd' (s.x rd) (s.pc + 2)

/-- R26, R69, R141: no instruction but `stw` changes a word of memory. -/
def Obligations.OnlyStoresChangeMemory : Prop :=
  ∀ (i : Instr) (s t : State), (∀ rd rs imm, i ≠ .stw rd rs imm) → exec i s = .next t → MemorySame s t

/-- R52, R69 (decision D9), R35: no step changes a word of ROM or the position of a switch. -/
def Obligations.StepKeepsRomAndSwitches : Prop :=
  ∀ s t : State, step s = .next t →
    (∀ a, a < 256 → t.word a = s.word a) ∧ t.startup = s.startup ∧ t.resetSwitch = s.resetSwitch ∧
      t.automatic = s.automatic

/-- R50, R57 (log 1): the canonical form is one: two memories in it that list the same word at every address are equal. -/
def Obligations.MemoryFormIsCanonical : Prop :=
  ∀ m m' : Memory, m.wf = true → m'.wf = true → (∀ a, m.lookup a = m'.lookup a) → m = m'

/-- R54, R209 (decisions D10, D21): after a store to 320 + i position i shows the glyph of the stored word and no other position
changes. -/
def Obligations.DisplayShowsTheStoredWord : Prop :=
  ∀ (rd rs : Reg) (imm : BitVec 6) (s : State) (i : Fin 16), (effectiveAddress s rs imm).toNat = 320 + i.val →
    ∃ t, exec (.stw rd rs imm) s = .next t ∧ t.shown i = Config.glyph (s.x rd) ∧
      ∀ j, j ≠ i → t.shown j = s.shown j

/-! ### The keyboard -/

/-- R213 (state 3 by C9): the transition table row by row, and that the buffer is nonzero only in state 3. -/
def Obligations.KeyboardTransitionTable : Prop :=
  (∀ (b i : Word) (e : Bool), kbdTick ⟨.reset, b⟩ i e = (⟨.waitPress, b⟩, 0)) ∧
  (∀ (b i : Word) (e : Bool), i ≠ 0 → kbdTick ⟨.waitPress, b⟩ i e = (⟨.storeKey, b⟩, 0)) ∧
  (∀ (b : Word) (e : Bool), kbdTick ⟨.waitPress, b⟩ 0 e = (⟨.waitPress, b⟩, 0)) ∧
  (∀ (b : Word) (e : Bool), kbdTick ⟨.storeKey, b⟩ 0 e = (⟨.waitPress, 0⟩, 0)) ∧
  (∀ (b i : Word) (e : Bool), i ≠ 0 → kbdTick ⟨.storeKey, b⟩ i e = (⟨.waitRead, i⟩, 0)) ∧
  (∀ b i : Word, kbdTick ⟨.waitRead, b⟩ i true = (⟨.waitRelease, 0⟩, b)) ∧
  (∀ b i : Word, kbdTick ⟨.waitRead, b⟩ i false = (⟨.waitRead, b⟩, 0)) ∧
  (∀ (b : Word) (e : Bool), kbdTick ⟨.waitRelease, b⟩ 0 e = (⟨.waitPress, b⟩, 0)) ∧
  (∀ (b i : Word) (e : Bool), i ≠ 0 → kbdTick ⟨.waitRelease, b⟩ i e = (⟨.waitRelease, b⟩, 0)) ∧
  (∀ (k : Keyboard) (ins : List (Word × Bool)), BufferHoldsKeyInState3 k → BufferHoldsKeyInState3 (kbdRun k ins).1)

/-- R215, R218: a `ldw` from 336 loads the buffer when the keyboard is in state 3 in step 4, and empties it; in any other state it
loads 0 and the keyboard goes on as without the read. -/
def Obligations.KeyboardReadTakesTheWaitingKey : Prop :=
  ∀ (s : State) (k : Keyboard),
    (kbdRun s.kbd [(s.keyIn 1, false), (s.keyIn 2, false), (s.keyIn 3, false)]).1 = k →
    (k.q = .waitRead → keyboardRead s = k.kb ∧ (kbdInstr s true).1 = (kbdTick ⟨.waitRelease, 0⟩ (s.keyIn 5) false).1) ∧
    (k.q ≠ .waitRead → keyboardRead s = 0 ∧ (kbdInstr s true).1 = (kbdInstr s false).1)

/-- R216 (a): in a good state what `ldw` loads from 336 is 0 or a member of KEYCODES. -/
def Obligations.LoadedKeyIsZeroOrAKeyCode : Prop :=
  ∀ (rd rs : Reg) (imm : BitVec 6) (s : State), Inv s → (effectiveAddress s rs imm).toNat = 336 →
    ∃ t, exec (.ldw rd rs imm) s = .next t ∧ (t.x rd = 0 ∨ isKeyCode (t.x rd) = true)

/-- R216 (b): after a key has been read every read gives 0 while a key is held, and a nonzero read comes only after a clock edge
with every key released and, later, a key held across two consecutive edges. -/
def Obligations.NextKeyNeedsReleaseAndTwoEdges : Prop :=
  ∀ ins : List (Word × Bool),
    ((∀ p ∈ ins, p.1 ≠ 0) → (kbdRun ⟨.waitRelease, 0⟩ ins).1 = ⟨.waitRelease, 0⟩ ∧
      ∀ o ∈ (kbdRun ⟨.waitRelease, 0⟩ ins).2, o = 0) ∧
    ((∃ o ∈ (kbdRun ⟨.waitRelease, 0⟩ ins).2, o ≠ 0) →
      ∃ pre e0 mid i1 e1 i2 e2 post, ins = pre ++ ((0, e0) :: mid) ++ ((i1, e1) :: (i2, e2) :: post) ∧ i1 ≠ 0 ∧ i2 ≠ 0)

/-- R216 (c), (d) (clause (c) by C9): a key held across two edges from state 1 is captured and stays, whatever keys are pressed, until
a read takes it; one released before the second edge is dropped. -/
def Obligations.CapturedKeyWaitsUntilRead : Prop :=
  ∀ (b i1 i2 j : Word) (e1 e2 : Bool) (waiting : List Word), i1 ≠ 0 →
    (i2 ≠ 0 →
      (kbdRun ⟨.waitPress, b⟩ ((i1, e1) :: (i2, e2) :: waiting.map fun v => (v, false))).1 = ⟨.waitRead, i2⟩ ∧
      (∀ o ∈ (kbdRun ⟨.waitPress, b⟩ ((i1, e1) :: (i2, e2) :: waiting.map fun v => (v, false))).2, o = 0) ∧
      kbdTick ⟨.waitRead, i2⟩ j true = (⟨.waitRelease, 0⟩, i2)) ∧
    kbdRun ⟨.waitPress, b⟩ [(i1, e1), (0, e2)] = (⟨.waitPress, 0⟩, [0, 0])

/-- R218: an instruction that does not read address 336 does the same whatever the keyboard holds and is given, but for the keyboard
itself. -/
def Obligations.KeyboardDoesNotMatterUnlessRead : Prop :=
  ∀ (i : Instr) (s : State) (k : Keyboard) (ks : List Word),
    (∀ rd rs imm, i = .ldw rd rs imm → (effectiveAddress s rs imm).toNat ≠ 336) →
    (∀ t, exec i s = .next t → ∃ u, exec i { s with kbd := k, keys := ks } = .next u ∧
      u = { t with kbd := u.kbd, keys := u.keys }) ∧
    (∀ f, exec i s = .fault f → exec i { s with kbd := k, keys := ks } = .fault f) ∧
    (∀ r, exec i s = .refused r → exec i { s with kbd := k, keys := ks } = .refused r)

/-! ### The five steps -/

/-- R13, R248 to R250: five clock periods of the datapath, driven by the control signal generator, are one instruction: registers, PC,
memory, keyboard, latches and model faults agree. `exit` has no register transfers (R112); latch values by log 7. -/
def Obligations.FiveClockPeriodsAreOneInstruction : Prop :=
  ∀ s : State, Executing s → AtBoundary s → (s.pc.toNat < 256 → decode (s.word s.pc.toNat) ≠ .exit) →
    clockPeriods 5 s = step s

/-- R34: no instruction depends on what the latches or the step counter held before it. -/
def Obligations.LatchesDoNotMatter : Prop :=
  ∀ (i : Instr) (s : State) (l : Latches) (n : StepNo), exec i { s with latches := l, stepNo := n } = exec i s

/-! ### Reset, start, stop -/

/-- R42, R241, R243 (r1 to r7, RM and KB by decision D11, log 5): the state after reset, and its lights. -/
def Obligations.ResetStateIsConfigurationOne : Prop :=
  (∀ r, State.reset.x r = 0) ∧ State.reset.pc = 0 ∧ State.reset.latches = ⟨0, 0, 0, 0, 0, 0⟩ ∧
  State.reset.stepNo = .s0 ∧ State.reset.running = false ∧ State.reset.exitFlag = false ∧
  State.reset.kbd = ⟨.reset, 0⟩ ∧ (∀ a, State.reset.mem.lookup a = none) ∧
  State.reset.lights = standardConfiguration 0

/-- R42, R43, R240 (D11, log 5): turning Reset on, at any moment, clears the registers, latches, flags and keyboard, keeps memory, and
holds that state while it is on. -/
def Obligations.ResetClearsRegistersAndKeepsMemory : Prop :=
  ∀ s : State, ∃ t, operate (.setReset true) s = .next t ∧ (∀ r, t.x r = 0) ∧ t.pc = 0 ∧
    t.latches = ⟨0, 0, 0, 0, 0, 0⟩ ∧ t.stepNo = .s0 ∧ t.running = false ∧ t.exitFlag = false ∧
    t.kbd = ⟨.reset, 0⟩ ∧ (∀ a, t.word a = s.word a) ∧ t.resetSwitch = true ∧ step t = .next t

/-- R242: with Reset off, Automatic on and Exit = 0, turning Startup on starts a stopped processor at step 1 with everything else
as it was, and it goes on running after Startup is turned off. -/
def Obligations.StartupPulseStartsTheProcessor : Prop :=
  ∀ s : State, s.resetSwitch = false → s.automatic = true → s.exitFlag = false → s.running = false →
    ∃ t u, operate (.setStartup true) s = .next t ∧ Executing t ∧ AtBoundary t ∧
      operate (.setStartup false) t = .next u ∧ Executing u ∧ AtBoundary u ∧
      u.startup = false ∧ u.exitFlag = false ∧ u.regs = s.regs ∧ u.pc = s.pc ∧ u.mem = s.mem ∧ u.kbd = s.kbd

/-- R243: the five configurations as states, and the cycle 1, 2, 3, 4, 5, 1 by Startup on, Startup off, `exit`, Reset on,
Reset off. -/
def Obligations.RunCyclesThroughTheStandardConfigurations : Prop :=
  (∀ s : State,
    (s.lights = standardConfiguration 0 ↔
      s.exitFlag = false ∧ s.startup = false ∧ s.resetSwitch = false ∧ s.running = false ∧ s.automatic = true) ∧
    (s.lights = standardConfiguration 1 ↔
      s.exitFlag = false ∧ s.startup = true ∧ s.resetSwitch = false ∧ s.running = true ∧ s.automatic = true) ∧
    (s.lights = standardConfiguration 2 ↔
      s.exitFlag = false ∧ s.startup = false ∧ s.resetSwitch = false ∧ s.running = true ∧ s.automatic = true) ∧
    (s.lights = standardConfiguration 3 ↔
      s.exitFlag = true ∧ s.startup = false ∧ s.resetSwitch = false ∧ s.running = false ∧ s.automatic = true) ∧
    (s.lights = standardConfiguration 4 ↔
      s.exitFlag = false ∧ s.startup = false ∧ s.resetSwitch = true ∧ s.running = false ∧ s.automatic = true)) ∧
  (∀ s1 : State, s1.lights = standardConfiguration 0 →
    ∃ s2 s3 s4 s5 s6, operate (.setStartup true) s1 = .next s2 ∧ s2.lights = standardConfiguration 1 ∧
      operate (.setStartup false) s2 = .next s3 ∧ s3.lights = standardConfiguration 2 ∧
      exec .exit s3 = .next s4 ∧ s4.lights = standardConfiguration 3 ∧
      operate (.setReset true) s4 = .next s5 ∧ s5.lights = standardConfiguration 4 ∧
      operate (.setReset false) s5 = .next s6 ∧ s6.lights = standardConfiguration 0)

/-- R224, R254: a stopped processor with Startup and Reset off takes no step: its state stays as it is. -/
def Obligations.StoppedProcessorStaysAsItIs : Prop :=
  ∀ s : State, s.resetSwitch = false → s.running = false → s.startup = false → step s = .next s

/-- R223, R244, R245 (U18, U19, log 16): a running processor with Automatic off, `exit` with Startup on, and Startup on while
Exit = 1, are outside the model. -/
def Obligations.RunsOutsideTheModelAreRefused : Prop :=
  ∀ s : State, s.resetSwitch = false →
    (s.startup = true → exec .exit s = .refused .exitWithStartupOn) ∧
    (s.running = true → s.automatic = false → step s = .refused .automaticOff) ∧
    (s.running = false → s.startup = true → s.exitFlag = true → step s = .refused .startupWhileExit) ∧
    (s.running = false → s.exitFlag = true → operate (.setStartup true) s = .refused .startupWhileExit)

/-- R254: while instructions execute, a step stops the clock exactly when it runs `exit`. -/
def Obligations.OnlyExitStopsTheClock : Prop :=
  ∀ s t : State, Executing s → step s = .next t →
    (t.running = false ↔ AtBoundary s ∧ decode (s.word s.pc.toNat) = .exit)

/-! ### The invariant -/

/-- R42: the reset state is a good state. -/
def Obligations.InvHoldsAtReset : Prop := Inv State.reset

/-- Every step from a good state, whether reachable or not, leads to a good state: canonical memory (R51), the key buffer nonzero
exactly in state 3 and holding 0 or a key code (R213, R216 (a)), no running after `exit` (R254), a named step while running (R33), and
the reset values held while Reset is on (R240). -/
def Obligations.StepKeepsInv : Prop := ∀ s t : State, Inv s → step s = .next t → Inv t

/-- Every move of the operator from a good state leads to a good state (R222). -/
def Obligations.OperatorKeepsInv : Prop :=
  ∀ (m : OperatorMove) (s t : State), Inv s → operate m s = .next t → Inv t

/-- Whatever the operator does, in any order with the machine's steps, every state that comes about is good (R221, R222). -/
def Obligations.ReachableStatesAreGood : Prop := ∀ s : State, Reachable s → Inv s

/-! ### The assembler's pseudo-instructions -/

/-- R171: `mov rX, rY` is `add rX, r0, rY` and copies rY. -/
def Obligations.MovCopiesARegister : Prop :=
  (∀ rX rY : Reg, expand (.mov rX rY) = some [.add rX .r0 rY] ∧
    ∀ s : State, CompletesWith (execAll [.add rX .r0 rY] s) s rX (s.x rY) (s.pc + 1)) ∧
  assemblePseudo (.mov .r2 .r3) = some [0x4181]

/-- R172, R173: `movi` loads -32 to 31, `moviu` loads 0 to 63. -/
def Obligations.MoveImmediatesLoadTheValue : Prop :=
  (∀ (rX : Reg) (v : Int), -32 ≤ v → v ≤ 31 → ∃ f, expand (.movi rX v) = some [.addi rX .r0 f] ∧
    ∀ s : State, CompletesWith (execAll [.addi rX .r0 f] s) s rX (BitVec.ofInt 16 v) (s.pc + 1)) ∧
  (∀ (rX : Reg) (v : Int), 0 ≤ v → v ≤ 63 → ∃ f, expand (.moviu rX v) = some [.ori rX .r0 f] ∧
    ∀ s : State, CompletesWith (execAll [.ori rX .r0 f] s) s rX (BitVec.ofInt 16 v) (s.pc + 1)) ∧
  assemblePseudo (.movi .r2 5) = some [0x4059] ∧ assemblePseudo (.movi .r2 (-1)) = some [0x43F9] ∧
  BitVec.ofInt 16 (-1) = 0xFFFF#16 ∧ assemblePseudo (.moviu .r2 63) = some [0x43FD]

/-- R174 (C5): `movia` leaves the 12-bit pattern of its operand, zero-extended, in rX (not r0) and changes nothing else but PC, which
moves on by three. -/
def Obligations.MoviaLoadsTwelveBits : Prop :=
  ∀ (rX : Reg) (v : BitVec 12) (s : State), rX ≠ .r0 →
    ∃ t, execAll (expandMovia rX v) s = .next t ∧ t.x rX = v.zeroExtend 16 ∧ RegsSameBut rX s t ∧ MemorySame s t ∧
      t.pc = s.pc + 3

/-- R175: `subi rX, rY, IMM` is `addi rX, rY, -IMM` for IMM from -31 to 32. That another immediate is refused and has no expansion
is the model's choice (log 14, after D19 and U26). -/
def Obligations.SubiSubtracts : Prop :=
  (∀ (rX rY : Reg) (v : Int), -31 ≤ v → v ≤ 32 → ∃ f, f.toInt = -v ∧ expand (.subi rX rY v) = some [.addi rX rY f] ∧
    ∀ s : State, CompletesWith (execAll [.addi rX rY f] s) s rX (BitVec.ofInt 16 ((s.x rY).toInt - v)) (s.pc + 1)) ∧
  (∀ (rX rY : Reg) (v : Int), v < -31 ∨ 32 < v → expand (.subi rX rY v) = none) ∧
  assemblePseudo (.subi .r2 .r2 1) = some [0x4BF9]

/-- R176, R177 (C6; that the order is the signed one by G13, log 12): `bge` branches exactly when rX is strictly greater than rY, as
`bgt` does, and `ble` exactly when it is strictly less, as `blt` does; neither branches on equal registers. -/
def Obligations.BgeAndBleAreStrict : Prop :=
  (∀ (rX rY : Reg) (off : Int), -32 ≤ off → off ≤ 31 →
    ∃ f, expand (.bge rX rY off) = some [.blt rY rX f] ∧ expand (.ble rX rY off) = some [.bgt rY rX f] ∧
      ∀ s : State,
        CompletesWith (exec (.blt rY rX f) s) s .r0 0
          (if (s.x rY).toInt < (s.x rX).toInt then BitVec.ofInt 16 ((s.pc.toNat : Int) + 1 + off) else s.pc + 1) ∧
        CompletesWith (exec (.bgt rX rY f) s) s .r0 0
          (if (s.x rY).toInt < (s.x rX).toInt then BitVec.ofInt 16 ((s.pc.toNat : Int) + 1 + off) else s.pc + 1) ∧
        CompletesWith (exec (.bgt rY rX f) s) s .r0 0
          (if (s.x rX).toInt < (s.x rY).toInt then BitVec.ofInt 16 ((s.pc.toNat : Int) + 1 + off) else s.pc + 1) ∧
        CompletesWith (exec (.blt rX rY f) s) s .r0 0
          (if (s.x rX).toInt < (s.x rY).toInt then BitVec.ofInt 16 ((s.pc.toNat : Int) + 1 + off) else s.pc + 1)) ∧
  assemblePseudo (.bge .r2 .r3 1) = some [0x6818] ∧ assemblePseudo (.ble .r2 .r3 1) = some [0x6817]

/-- R178, R179: `brz` branches exactly when rX is 0 and `bnz` exactly when it is not; the labels of the examples give the
words of the examples. -/
def Obligations.BranchOnZero : Prop :=
  (∀ (rX : Reg) (off : Int), -32 ≤ off → off ≤ 31 →
    ∃ f, expand (.brz rX off) = some [.beq rX .r0 f] ∧ expand (.bnz rX off) = some [.bne rX .r0 f] ∧
      ∀ s : State,
        CompletesWith (execAll [.beq rX .r0 f] s) s .r0 0
          (if s.x rX = 0 then BitVec.ofInt 16 ((s.pc.toNat : Int) + 1 + off) else s.pc + 1) ∧
        CompletesWith (execAll [.bne rX .r0 f] s) s .r0 0
          (if s.x rX ≠ 0 then BitVec.ofInt 16 ((s.pc.toNat : Int) + 1 + off) else s.pc + 1)) ∧
  assemblePseudo (.brz .r4 (labelOffset 7 12)) = some [0x8045] ∧
  assemblePseudo (.bnz .r2 (labelOffset 4 2)) = some [0x43D6]

/-- R180, R181: `br` always branches; `nop` changes no register and no memory and takes its five periods. -/
def Obligations.BrAlwaysBranchesAndNopDoesNothing : Prop :=
  (∀ off : Int, -32 ≤ off → off ≤ 31 → ∃ f, expand (.br off) = some [.beq .r0 .r0 f] ∧
    ∀ s : State, CompletesWith (execAll [.beq .r0 .r0 f] s) s .r0 0 (BitVec.ofInt 16 ((s.pc.toNat : Int) + 1 + off))) ∧
  expand .nop = some [.add .r0 .r0 .r0] ∧
  (∀ s : State, CompletesWith (execAll [.add .r0 .r0 .r0] s) s .r0 0 (s.pc + 1)) ∧
  assemblePseudo (.br (labelOffset 11 6)) = some [0x03A5] ∧ assemblePseudo .nop = some [0x0001]

/-- R183, R184 (decision D19, log 14): `.asciz` emits the code of each upper-cased character, one a word, and a word 0; `.malloc` labels lie one after another from
256 upward. -/
def Obligations.DirectivesLayOutWords : Prop :=
  asciz ['H', 'i', '!'] = [72, 73, 33, 0] ∧
  (∀ text : List Char, (asciz text).length = text.length + 1 ∧ (asciz text).getLast? = some 0 ∧
    ∀ (k : Nat) (h : k < text.length), (asciz text)[k]? = some (BitVec.ofNat 16 text[k].toUpper.toNat)) ∧
  (∀ (amounts : List Nat) (k : Nat), k < amounts.length → (malloc amounts)[k]? = some (256 + (amounts.take k).sum))

/-! ### Loading a program -/

/-- R52, R222 (log 10; the refusal by log 16): while the processor is stopped, loading ROM puts the words of the image at the addresses
from 0 on, up to the end of ROM, and changes nothing else; while it runs the move is refused. -/
def Obligations.LoadRomPlacesTheImage : Prop :=
  ∀ (image : List Word) (s : State),
    (s.running = false → ∃ t, operate (.loadRom image) s = .next t ∧
      (∀ (a : Nat) (h : a < image.length), a < 256 → t.word a = image[a]) ∧
      (∀ a : Nat, 256 ≤ a ∨ image.length ≤ a → t.word a = s.word a) ∧
      (∀ r, t.x r = s.x r) ∧ t = { s with mem := t.mem }) ∧
    (s.running = true → operate (.loadRom image) s = .refused .romEditedDuringRun)
end

