-- ==== Sys2Proof/Laws/Alu.lean ====
section
/-!
SUPPORT. The ALU's arithmetic in library terms (41_alu_register.md R121 to R138).
-/

namespace Sys2Proof.Machine

/-- `exactPower` is the integer power (R126). -/
theorem exactPower_eq (a : Int) (n : Nat) : exactPower a n = a ^ n := by
  unfold exactPower
  by_cases h1 : a.natAbs ≤ 1
  · rw [if_pos h1]
    have ha : a = 0 ∨ a = 1 ∨ a = -1 := by omega
    by_cases hn : n = 0
    · simp [hn]
    · rw [if_neg hn]
      rcases ha with rfl | rfl | rfl
      · simp [hn]
      · simp
      · by_cases hp : n % 2 = 0
        · simp [hp, Even.neg_one_pow (Nat.even_iff.mpr hp)]
        · simp [hp, Odd.neg_one_pow (Nat.odd_iff.mpr (by omega : n % 2 = 1))]
  · rw [if_neg h1]
    by_cases ha : a < 0
    · have hna : ((a.natAbs : Nat) : Int) = -a := by omega
      by_cases hn : n % 2 = 1
      · rw [if_pos ⟨ha, hn⟩, Nat.cast_pow, hna, Odd.neg_pow (Nat.odd_iff.mpr hn), neg_neg]
      · rw [if_neg (by simp [hn]), Nat.cast_pow, hna, Even.neg_pow (Nat.even_iff.mpr (by omega))]
    · rw [if_neg (by simp [ha]), Nat.cast_pow]
      congr 1
      omega

/-- `powerFits` says that the integer power fits 32 signed bits (R126). -/
theorem powerFits_eq (a : Int) (n : Nat) : powerFits a n = fits32 (a ^ n) := by
  unfold powerFits
  rw [exactPower_eq]
  by_cases h : a.natAbs ≤ 1 ∨ n ≤ 31
  · simp [h]
  · have h2 : 2 ≤ a.natAbs := by omega
    have hp : 2 ^ 32 ≤ a.natAbs ^ n :=
      (Nat.pow_le_pow_right (by omega) (by omega)).trans (Nat.pow_le_pow_left h2 n)
    have hab : (a ^ n).natAbs = a.natAbs ^ n := Int.natAbs_pow a n
    have hf : fits32 (a ^ n) = false := by
      simp only [fits32, Bool.and_eq_false_iff, decide_eq_false_iff_not]
      omega
    simp [hf]

/-- `quotient` is division rounded toward zero (R125). -/
theorem quotient_eq (a b : Int) : quotient a b = a.tdiv b := by
  have abs_succ (n : Nat) : |(n : Int) + 1| = n + 1 := abs_of_nonneg (by omega)
  unfold quotient
  rcases a with a | a <;> rcases b with b | b
  · rcases a with _ | a <;> rcases b with _ | b <;> simp [Int.tdiv, Int.sign, abs_succ]
  · rcases a with _ | a <;> simp [Int.tdiv, Int.sign, abs_succ]
  · rcases b with _ | b <;> simp [Int.tdiv, Int.sign, abs_succ]
  · simp [Int.tdiv, Int.sign]

/-- Addition wraps: signed and unsigned give the same word (R122). -/
theorem aluAdd_eq (a b : Word) : aluAdd a b = a + b := by
  unfold aluAdd trunc16 s16
  rw [BitVec.ofInt_add, BitVec.ofInt_toInt, BitVec.ofInt_toInt]

/-- Subtraction wraps (R123). -/
theorem aluSub_eq (a b : Word) : aluSub a b = a - b := by
  unfold aluSub trunc16 s16
  rw [sub_eq_add_neg, BitVec.ofInt_add, BitVec.ofInt_neg, BitVec.ofInt_toInt, BitVec.ofInt_toInt, BitVec.sub_eq_add_neg]

/-- Multiplication wraps (R124). -/
theorem aluMul_eq (a b : Word) : aluMul a b = a * b := by
  unfold aluMul trunc16 s16
  rw [BitVec.ofInt_mul, BitVec.ofInt_toInt, BitVec.ofInt_toInt]

/-- Only the word 0 reads as 0. -/
theorem s16_eq_zero_iff (a : Word) : s16 a = 0 ↔ a = 0 :=
  ⟨fun h => BitVec.toInt_inj.mp h, fun h => h ▸ rfl⟩

/-- `ALU.div` in its two cases (R125, R137). -/
theorem aluDiv_eq (a b : Word) : aluDiv a b = if b = 0 then Config.divZero a else a.sdiv b := by
  unfold aluDiv
  simp only [s16_eq_zero_iff]
  split
  · rfl
  · apply BitVec.eq_of_toInt_eq
    rw [quotient_eq, BitVec.toInt_sdiv, trunc16, BitVec.toInt_ofInt, s16, s16]

/-- `ALU.mod` in its two cases (R127, R137). -/
theorem aluMod_eq (a b : Word) : aluMod a b = if b = 0 then Config.modZero a else a.srem b := by
  unfold aluMod
  simp only [s16_eq_zero_iff]
  split
  · rfl
  · rw [quotient_eq, ← Int.tmod_def, s16, s16, ← BitVec.toInt_srem, trunc16, BitVec.ofInt_toInt]

/-- `ALU.pow` in its three cases (R126, R137). -/
theorem aluPow_eq (a b : Word) :
    aluPow a b = if b.toInt < 0 then Config.powNeg a b
      else if fits32 (a.toInt ^ b.toInt.toNat) then BitVec.ofInt 16 (a.toInt ^ b.toInt.toNat) else Config.powOvf a b := by
  unfold aluPow trunc16 s16
  rw [powerFits_eq, exactPower_eq]

/-- `ALU.xnor` is the complement of the exclusive OR (R131). -/
theorem aluXnor_eq (a b : Word) : aluXnor a b = ~~~(a ^^^ b) :=
  BitVec.allOnes_sub_eq_not (a ^^^ b)

/-- A word reads as a small non-negative number exactly when its bits do. -/
theorem s16_small_iff (b : Word) {n : Nat} (hn : n ≤ 32767) : (0 ≤ s16 b ∧ s16 b ≤ (n : Int)) ↔ b.toNat ≤ n := by
  unfold s16
  rw [BitVec.toInt_eq_toNat_cond]
  split <;> omega

/-- The two readings of a small word agree. -/
theorem s16_toNat (b : Word) (h : b.toNat ≤ 32767) : (s16 b).toNat = b.toNat := by
  unfold s16
  rw [BitVec.toInt_eq_toNat_cond]
  split <;> omega

/-- `ALU.ls` in its two cases (R132, R137). -/
theorem aluLs_eq (a b : Word) : aluLs a b = if b.toNat ≤ 31 then a <<< b.toNat else Config.shlOor a b := by
  unfold aluLs
  simp only [show (31 : Int) = ((31 : Nat) : Int) from rfl, s16_small_iff b (by decide : 31 ≤ 32767)]
  split
  · rw [s16_toNat b (by omega), trunc16, s16, BitVec.ofInt_mul, BitVec.ofInt_toInt, ← BitVec.mul_twoPow_eq_shiftLeft]
    congr 1
    apply BitVec.eq_of_toNat_eq
    rw [BitVec.toNat_ofInt, BitVec.toNat_twoPow]
    norm_cast
  · rfl

/-- `ALU.rs` in its two cases (R133, R137). -/
theorem aluRs_eq (a b : Word) : aluRs a b = if b.toNat ≤ 31 then a.sshiftRight b.toNat else Config.shrOor a b := by
  unfold aluRs
  simp only [show (31 : Int) = ((31 : Nat) : Int) from rfl, s16_small_iff b (by decide : 31 ≤ 32767)]
  split
  · rw [s16_toNat b (by omega), trunc16, s16, BitVec.sshiftRight, Int.shiftRight_eq_div_pow]
    norm_cast
  · rfl

/-- A word's low bits moved up by `n` beside its high `n` bits moved down: the sum is the union. -/
theorem rotate_toNat (a : Word) {n : Nat} (h : n ≤ 16) :
    (a <<< n ||| a >>> (16 - n)).toNat = a.toNat * 2 ^ n % 65536 + a.toNat / 2 ^ (16 - n) := by
  have hp : 65536 = 2 ^ (16 - n) * 2 ^ n := by rw [← pow_add, Nat.sub_add_cancel h]; norm_num
  have hlt : a.toNat / 2 ^ (16 - n) < 2 ^ n := by
    rw [Nat.div_lt_iff_lt_mul (by positivity), mul_comm, ← hp]; exact a.isLt
  rw [BitVec.toNat_or, BitVec.toNat_shiftLeft, BitVec.toNat_ushiftRight, Nat.shiftLeft_eq, Nat.shiftRight_eq_div_pow,
    show (2 ^ 16 : Nat) = 65536 from rfl]
  conv =>
    lhs
    rw [hp, Nat.mul_mod_mul_right, ← Nat.shiftLeft_eq, ← Nat.shiftLeft_add_eq_or_of_lt hlt, Nat.shiftLeft_eq,
      ← Nat.mul_mod_mul_right, ← hp]

/-- `ALU.lr` in its two cases (R134, R137). -/
theorem aluLr_eq (a b : Word) : aluLr a b = if b.toNat ≤ 15 then a.rotateLeft b.toNat else Config.rolOor a b := by
  unfold aluLr
  simp only [show (15 : Int) = ((15 : Nat) : Int) from rfl, s16_small_iff b (by decide : 15 ≤ 32767)]
  split
  · next h =>
    rw [s16_toNat b (by omega), ← rotate_toNat a (by omega), BitVec.ofNat_toNat, BitVec.setWidth_eq, BitVec.rotateLeft,
      BitVec.rotateLeftAux, Nat.mod_eq_of_lt (by omega)]
  · rfl

/-- `ALU.rr` in its two cases (R135, R137). -/
theorem aluRr_eq (a b : Word) : aluRr a b = if b.toNat ≤ 15 then a.rotateRight b.toNat else Config.rorOor a b := by
  unfold aluRr
  simp only [show (15 : Int) = ((15 : Nat) : Int) from rfl, s16_small_iff b (by decide : 15 ≤ 32767)]
  split
  · next h =>
    have := rotate_toNat a (n := 16 - b.toNat) (by omega)
    rw [show 16 - (16 - b.toNat) = b.toNat by omega] at this
    rw [s16_toNat b (by omega), Nat.add_comm, ← this, BitVec.ofNat_toNat, BitVec.setWidth_eq, BitVec.rotateRight,
      BitVec.rotateRightAux, Nat.mod_eq_of_lt (by omega), BitVec.or_comm]
  · rfl

/-- A compare delivers 1 or 0 (R138). -/
theorem aluCmp_one_iff (a b : Word) :
    (aluCmpEq a b = 1 ↔ s16 a = s16 b) ∧ (aluCmpNe a b = 1 ↔ s16 a ≠ s16 b) ∧
      (aluCmpGt a b = 1 ↔ s16 b < s16 a) ∧ (aluCmpLt a b = 1 ↔ s16 a < s16 b) := by
  unfold aluCmpEq aluCmpNe aluCmpGt aluCmpLt
  refine ⟨?_, ?_, ?_, ?_⟩ <;> split <;> simp_all

end Sys2Proof.Machine
end

