-- ==== Sys2Proof/Laws/Encoding.lean ====
section
/-!
SUPPORT. The fields of an encoded word are the fields it was made of (30_encoding.md R82 to R84, R95).
-/

namespace Sys2Proof

@[simp] theorem Reg.ofBits_bits (r : Reg) : Reg.ofBits r.bits = r := by cases r <;> rfl

@[simp] theorem Reg.bits_ofBits (b : BitVec 3) : (Reg.ofBits b).bits = b := by
  revert b; decide

/-! ### Slices of a word made of fields -/

theorem slice_rtype (d s t u : BitVec 3) (p : BitVec 4) :
    (d ++ s ++ t ++ u ++ p : Word).extractLsb' 13 3 = d ∧ (d ++ s ++ t ++ u ++ p : Word).extractLsb' 10 3 = s ∧
      (d ++ s ++ t ++ u ++ p : Word).extractLsb' 7 3 = t ∧ (d ++ s ++ t ++ u ++ p : Word).extractLsb' 4 3 = u ∧
      (d ++ s ++ t ++ u ++ p : Word).extractLsb' 0 4 = p := by
  refine ⟨?_, ?_, ?_, ?_, ?_⟩ <;> ext i hi <;>
    simp only [BitVec.getElem_extractLsb', BitVec.getLsbD_append] <;>
    interval_cases i <;> simp [BitVec.getLsbD_eq_getElem]

theorem slice_ctype (d s : BitVec 3) (i : BitVec 6) (p : BitVec 4) :
    (d ++ s ++ i ++ p : Word).extractLsb' 13 3 = d ∧ (d ++ s ++ i ++ p : Word).extractLsb' 10 3 = s ∧
      (d ++ s ++ i ++ p : Word).extractLsb' 4 6 = i ∧ (d ++ s ++ i ++ p : Word).extractLsb' 0 4 = p := by
  refine ⟨?_, ?_, ?_, ?_⟩ <;> ext j hj <;>
    simp only [BitVec.getElem_extractLsb', BitVec.getLsbD_append] <;>
    interval_cases j <;> simp [BitVec.getLsbD_eq_getElem]

theorem slice_ltype (i : BitVec 11) (p : BitVec 5) :
    (i ++ p : Word).extractLsb' 5 11 = i ∧ (i ++ p : Word).extractLsb' 0 4 = p.extractLsb' 0 4 ∧
      (i ++ p : Word).extractLsb' 4 1 = p.extractLsb' 4 1 := by
  refine ⟨?_, ?_, ?_⟩ <;> ext j hj <;>
    simp only [BitVec.getElem_extractLsb', BitVec.getLsbD_append] <;>
    interval_cases j <;> simp [BitVec.getLsbD_eq_getElem]

/-- Every word is made of the five fields of the R-type format. -/
theorem word_fields (w : Word) : ∃ (d s t u : BitVec 3) (p : BitVec 4), w = d ++ s ++ t ++ u ++ p := by
  refine ⟨w.extractLsb' 13 3, w.extractLsb' 10 3, w.extractLsb' 7 3, w.extractLsb' 4 3, w.extractLsb' 0 4, ?_⟩
  refine BitVec.eq_of_getLsbD_eq fun i hi => ?_
  simp only [BitVec.getLsbD_append, BitVec.getLsbD_extractLsb']
  interval_cases i <;> simp

/-! ### Fields of encoded words -/

section RType
variable (u : BitVec 3) (p : BitVec 4) (rd rs rt : Reg)

@[simp] theorem fieldX_rtype : fieldX (encodeRType u p rd rs rt) = rd := by
  rw [fieldX, encodeRType, (slice_rtype ..).1, Reg.ofBits_bits]
@[simp] theorem fieldY_rtype : fieldY (encodeRType u p rd rs rt) = rs := by
  rw [fieldY, encodeRType, (slice_rtype ..).2.1, Reg.ofBits_bits]
@[simp] theorem fieldZ_rtype : fieldZ (encodeRType u p rd rs rt) = rt := by
  rw [fieldZ, encodeRType, (slice_rtype ..).2.2.1, Reg.ofBits_bits]
@[simp] theorem fieldSub_rtype : fieldSub (encodeRType u p rd rs rt) = u := by
  rw [fieldSub, encodeRType, (slice_rtype ..).2.2.2.1]
@[simp] theorem fieldPrimary_rtype : fieldPrimary (encodeRType u p rd rs rt) = p := by
  rw [fieldPrimary, encodeRType, (slice_rtype ..).2.2.2.2]
end RType

section CType
variable (p : BitVec 4) (rd rs : Reg) (imm : BitVec 6)

@[simp] theorem fieldX_ctype : fieldX (encodeCType p rd rs imm) = rd := by
  rw [fieldX, encodeCType, (slice_ctype ..).1, Reg.ofBits_bits]
@[simp] theorem fieldY_ctype : fieldY (encodeCType p rd rs imm) = rs := by
  rw [fieldY, encodeCType, (slice_ctype ..).2.1, Reg.ofBits_bits]
@[simp] theorem fieldImm6_ctype : fieldImm6 (encodeCType p rd rs imm) = imm := by
  rw [fieldImm6, encodeCType, (slice_ctype ..).2.2.1]
@[simp] theorem fieldPrimary_ctype : fieldPrimary (encodeCType p rd rs imm) = p := by
  rw [fieldPrimary, encodeCType, (slice_ctype ..).2.2.2]
end CType

section LType
variable (p : BitVec 5) (imm : BitVec 11)

@[simp] theorem fieldImm11_ltype : fieldImm11 (encodeLType p imm) = imm := by
  rw [fieldImm11, encodeLType, (slice_ltype ..).1]
@[simp] theorem fieldPrimary_ltype : fieldPrimary (encodeLType p imm) = p.extractLsb' 0 4 := by
  rw [fieldPrimary, encodeLType, (slice_ltype ..).2.1]
@[simp] theorem bit4_ltype : (encodeLType p imm).extractLsb' 4 1 = p.extractLsb' 4 1 := by
  rw [encodeLType, (slice_ltype ..).2.2]
end LType

/-! ### The opcode fields as masks (R96) -/

theorem mask_rtype (u : BitVec 3) (p : BitVec 4) (rd rs rt : Reg) :
    encodeRType u p rd rs rt &&& 0x007F#16 = (0#9 ++ u ++ p : Word) := by
  rw [encodeRType]
  refine BitVec.eq_of_getLsbD_eq fun i hi => ?_
  simp only [BitVec.getLsbD_and, BitVec.getLsbD_append]
  interval_cases i <;> simp

theorem mask_ctype (p : BitVec 4) (rd rs : Reg) (imm : BitVec 6) :
    encodeCType p rd rs imm &&& 0x000F#16 = (0#12 ++ p : Word) := by
  rw [encodeCType]
  refine BitVec.eq_of_getLsbD_eq fun i hi => ?_
  simp only [BitVec.getLsbD_and, BitVec.getLsbD_append]
  interval_cases i <;> simp

theorem mask_ltype (p : BitVec 5) (imm : BitVec 11) :
    encodeLType p imm &&& 0x001F#16 = (0#11 ++ p : Word) := by
  rw [encodeLType]
  refine BitVec.eq_of_getLsbD_eq fun i hi => ?_
  simp only [BitVec.getLsbD_and, BitVec.getLsbD_append]
  interval_cases i <;> simp

end Sys2Proof
end

