-- ==== Sys2Proof/Laws/Keyboard.lean ====
section
/-!
SUPPORT. The keyboard: what one transition can do, and what it keeps (60_exceptions.md R213 to R216).
-/

namespace Sys2Proof.Machine

/-- All that one transition can do, by the table of R213. -/
theorem kbdTick_cases (k : Keyboard) (i : Word) (e : Bool) :
    (k.q = .reset ∧ kbdTick k i e = (⟨.waitPress, k.kb⟩, 0)) ∨
    (k.q = .waitPress ∧ i = 0 ∧ kbdTick k i e = (⟨.waitPress, k.kb⟩, 0)) ∨
    (k.q = .waitPress ∧ i ≠ 0 ∧ kbdTick k i e = (⟨.storeKey, k.kb⟩, 0)) ∨
    (k.q = .storeKey ∧ i = 0 ∧ kbdTick k i e = (⟨.waitPress, 0⟩, 0)) ∨
    (k.q = .storeKey ∧ i ≠ 0 ∧ kbdTick k i e = (⟨.waitRead, i⟩, 0)) ∨
    (k.q = .waitRead ∧ e = true ∧ kbdTick k i e = (⟨.waitRelease, 0⟩, k.kb)) ∨
    (k.q = .waitRead ∧ e = false ∧ kbdTick k i e = (k, 0)) ∨
    (k.q = .waitRelease ∧ i = 0 ∧ kbdTick k i e = (⟨.waitPress, k.kb⟩, 0)) ∨
    (k.q = .waitRelease ∧ i ≠ 0 ∧ kbdTick k i e = (⟨.waitRelease, k.kb⟩, 0)) := by
  obtain ⟨q, b⟩ := k
  by_cases hi : i = 0
  · subst hi; cases q <;> cases e <;> simp [kbdTick]
  · cases q <;> cases e <;> simp [kbdTick, eq_or_ne]

/-- A transition without a read has output 0. -/
theorem kbdTick_noRead_output (k : Keyboard) (i : Word) : (kbdTick k i false).2 = 0 := by
  rcases kbdTick_cases k i false with ⟨hq, eq⟩ | ⟨hq, hi', eq⟩ | ⟨hq, hi', eq⟩ | ⟨hq, hi', eq⟩ | ⟨hq, hi', eq⟩ | ⟨hq, he, eq⟩ |
    ⟨hq, he, eq⟩ | ⟨hq, hi', eq⟩ | ⟨hq, hi', eq⟩ <;>
    rw [eq]
  cases he

/-- A transition keeps the buffer nonzero exactly in state 3. -/
theorem kbdTick_buffer {k : Keyboard} (i : Word) (e : Bool) (h : BufferHoldsKeyInState3 k) :
    BufferHoldsKeyInState3 (kbdTick k i e).1 := by
  unfold BufferHoldsKeyInState3 at h ⊢
  rcases kbdTick_cases k i e with ⟨hq, eq⟩ | ⟨hq, hi', eq⟩ | ⟨hq, hi', eq⟩ | ⟨hq, hi', eq⟩ | ⟨hq, hi', eq⟩ | ⟨hq, he, eq⟩ |
    ⟨hq, he, eq⟩ | ⟨hq, hi', eq⟩ | ⟨hq, hi', eq⟩ <;>
    rw [eq] <;> simp_all

/-- A transition on key data keeps the buffer key data. -/
theorem kbdTick_bufferLegal {k : Keyboard} {i : Word} (e : Bool) (hi : isKeyData i = true) (h : isKeyData k.kb = true) :
    isKeyData (kbdTick k i e).1.kb = true := by
  have h0 : isKeyData 0 = true := rfl
  rcases kbdTick_cases k i e with ⟨hq, eq⟩ | ⟨hq, hi', eq⟩ | ⟨hq, hi', eq⟩ | ⟨hq, hi', eq⟩ | ⟨hq, hi', eq⟩ | ⟨hq, he, eq⟩ |
    ⟨hq, he, eq⟩ | ⟨hq, hi', eq⟩ | ⟨hq, hi', eq⟩ <;>
    rw [eq] <;> assumption

/-- The output of a transition is 0 or the buffer. -/
theorem kbdTick_output (k : Keyboard) (i : Word) (e : Bool) : (kbdTick k i e).2 = 0 ∨ (kbdTick k i e).2 = k.kb := by
  rcases kbdTick_cases k i e with ⟨hq, eq⟩ | ⟨hq, hi', eq⟩ | ⟨hq, hi', eq⟩ | ⟨hq, hi', eq⟩ | ⟨hq, hi', eq⟩ | ⟨hq, he, eq⟩ |
    ⟨hq, he, eq⟩ | ⟨hq, hi', eq⟩ | ⟨hq, hi', eq⟩ <;>
    rw [eq] <;> simp

/-- Key data that no script fixes is 0 or a key code (R211). -/
theorem freeKeyData_legal (n : Nat) : isKeyData (freeKeyData n) = true := by
  unfold freeKeyData
  split
  · assumption
  · rfl

/-- With a legal script the key data of every coming period is 0 or a key code (R211). -/
theorem keyIn_legal {s : State} (h : s.keys.all isKeyData = true) (j : Nat) : isKeyData (s.keyIn j) = true := by
  unfold State.keyIn
  split
  · next v hv => exact List.all_eq_true.mp h v (List.mem_of_getElem? hv)
  · exact freeKeyData_legal _

/-- Five clock periods keep the buffer nonzero exactly in state 3. -/
theorem kbdInstr_buffer {s : State} (isRead : Bool) (h : BufferHoldsKeyInState3 s.kbd) :
    BufferHoldsKeyInState3 (kbdInstr s isRead).1 :=
  kbdTick_buffer _ _ (kbdTick_buffer _ _ (kbdTick_buffer _ _ (kbdTick_buffer _ _ (kbdTick_buffer _ _ h))))

/-- Five clock periods keep the buffer key data. -/
theorem kbdInstr_bufferLegal {s : State} (isRead : Bool) (hk : s.keys.all isKeyData = true)
    (h : isKeyData s.kbd.kb = true) : isKeyData (kbdInstr s isRead).1.kb = true :=
  kbdTick_bufferLegal _ (keyIn_legal hk 5) (kbdTick_bufferLegal _ (keyIn_legal hk 4)
    (kbdTick_bufferLegal _ (keyIn_legal hk 3) (kbdTick_bufferLegal _ (keyIn_legal hk 2)
      (kbdTick_bufferLegal _ (keyIn_legal hk 1) h))))

end Sys2Proof.Machine
end

