-- ==== Sys2Proof/Laws/State.lean ====
section
/-!
SUPPORT. One lemma per field for each named update of the state, so that no proof unfolds a record update.
-/

namespace Sys2Proof.Machine

/-! ### retire -/

@[simp] theorem retire_regs (s : State) (isRead : Bool) (l : Latches) (target : Word) (d : Reg) (v : Word) :
    (retire s isRead l target d v).regs = s.regs.write d v := rfl
@[simp] theorem retire_pc (s : State) (isRead : Bool) (l : Latches) (target : Word) (d : Reg) (v : Word) :
    (retire s isRead l target d v).pc = target := rfl
@[simp] theorem retire_latches (s : State) (isRead : Bool) (l : Latches) (target : Word) (d : Reg) (v : Word) :
    (retire s isRead l target d v).latches = l := rfl
@[simp] theorem retire_stepNo (s : State) (isRead : Bool) (l : Latches) (target : Word) (d : Reg) (v : Word) :
    (retire s isRead l target d v).stepNo = .s1 := rfl
@[simp] theorem retire_running (s : State) (isRead : Bool) (l : Latches) (target : Word) (d : Reg) (v : Word) :
    (retire s isRead l target d v).running = s.running := rfl
@[simp] theorem retire_exitFlag (s : State) (isRead : Bool) (l : Latches) (target : Word) (d : Reg) (v : Word) :
    (retire s isRead l target d v).exitFlag = s.exitFlag := rfl
@[simp] theorem retire_mem (s : State) (isRead : Bool) (l : Latches) (target : Word) (d : Reg) (v : Word) :
    (retire s isRead l target d v).mem = s.mem := rfl
@[simp] theorem retire_kbd (s : State) (isRead : Bool) (l : Latches) (target : Word) (d : Reg) (v : Word) :
    (retire s isRead l target d v).kbd = (kbdInstr s isRead).1 := rfl
@[simp] theorem retire_startup (s : State) (isRead : Bool) (l : Latches) (target : Word) (d : Reg) (v : Word) :
    (retire s isRead l target d v).startup = s.startup := rfl
@[simp] theorem retire_resetSwitch (s : State) (isRead : Bool) (l : Latches) (target : Word) (d : Reg) (v : Word) :
    (retire s isRead l target d v).resetSwitch = s.resetSwitch := rfl
@[simp] theorem retire_automatic (s : State) (isRead : Bool) (l : Latches) (target : Word) (d : Reg) (v : Word) :
    (retire s isRead l target d v).automatic = s.automatic := rfl
@[simp] theorem retire_keys (s : State) (isRead : Bool) (l : Latches) (target : Word) (d : Reg) (v : Word) :
    (retire s isRead l target d v).keys = s.keys.drop 5 := rfl
@[simp] theorem retire_period (s : State) (isRead : Bool) (l : Latches) (target : Word) (d : Reg) (v : Word) :
    (retire s isRead l target d v).period = s.period + 5 := rfl

/-! ### halt -/

@[simp] theorem halt_regs (s : State) :
    (halt s).regs = s.regs := rfl
@[simp] theorem halt_pc (s : State) :
    (halt s).pc = if Config.exitPcIsLink s.period then s.x .r1 else s.nextPc := rfl
@[simp] theorem halt_stepNo (s : State) :
    (halt s).stepNo = StepNo.ofFin (Config.exitStep s.period) := rfl
@[simp] theorem halt_running (s : State) :
    (halt s).running = false := rfl
@[simp] theorem halt_exitFlag (s : State) :
    (halt s).exitFlag = true := rfl
@[simp] theorem halt_mem (s : State) :
    (halt s).mem = s.mem := rfl
@[simp] theorem halt_kbd (s : State) :
    (halt s).kbd = s.kbd := rfl
@[simp] theorem halt_startup (s : State) :
    (halt s).startup = s.startup := rfl
@[simp] theorem halt_resetSwitch (s : State) :
    (halt s).resetSwitch = s.resetSwitch := rfl
@[simp] theorem halt_automatic (s : State) :
    (halt s).automatic = s.automatic := rfl
@[simp] theorem halt_keys (s : State) :
    (halt s).keys = s.keys := rfl
@[simp] theorem halt_period (s : State) :
    (halt s).period = s.period + 5 := rfl

/-! ### resetRegisters -/

@[simp] theorem resetRegisters_regs (s : State) :
    (resetRegisters s).regs = .cleared := rfl
@[simp] theorem resetRegisters_pc (s : State) :
    (resetRegisters s).pc = 0 := rfl
@[simp] theorem resetRegisters_latches (s : State) :
    (resetRegisters s).latches = .cleared := rfl
@[simp] theorem resetRegisters_stepNo (s : State) :
    (resetRegisters s).stepNo = .s0 := rfl
@[simp] theorem resetRegisters_running (s : State) :
    (resetRegisters s).running = false := rfl
@[simp] theorem resetRegisters_exitFlag (s : State) :
    (resetRegisters s).exitFlag = false := rfl
@[simp] theorem resetRegisters_mem (s : State) :
    (resetRegisters s).mem = s.mem := rfl
@[simp] theorem resetRegisters_kbd (s : State) :
    (resetRegisters s).kbd = .cleared := rfl
@[simp] theorem resetRegisters_startup (s : State) :
    (resetRegisters s).startup = s.startup := rfl
@[simp] theorem resetRegisters_resetSwitch (s : State) :
    (resetRegisters s).resetSwitch = s.resetSwitch := rfl
@[simp] theorem resetRegisters_automatic (s : State) :
    (resetRegisters s).automatic = s.automatic := rfl
@[simp] theorem resetRegisters_keys (s : State) :
    (resetRegisters s).keys = s.keys := rfl
@[simp] theorem resetRegisters_period (s : State) :
    (resetRegisters s).period = s.period := rfl

/-! ### startRun -/

@[simp] theorem startRun_regs (s : State) :
    (startRun s).regs = s.regs := rfl
@[simp] theorem startRun_pc (s : State) :
    (startRun s).pc = s.pc := rfl
@[simp] theorem startRun_latches (s : State) :
    (startRun s).latches = s.latches := rfl
@[simp] theorem startRun_stepNo (s : State) :
    (startRun s).stepNo = .s1 := rfl
@[simp] theorem startRun_running (s : State) :
    (startRun s).running = true := rfl
@[simp] theorem startRun_exitFlag (s : State) :
    (startRun s).exitFlag = s.exitFlag := rfl
@[simp] theorem startRun_mem (s : State) :
    (startRun s).mem = s.mem := rfl
@[simp] theorem startRun_kbd (s : State) :
    (startRun s).kbd = s.kbd := rfl
@[simp] theorem startRun_startup (s : State) :
    (startRun s).startup = s.startup := rfl
@[simp] theorem startRun_resetSwitch (s : State) :
    (startRun s).resetSwitch = s.resetSwitch := rfl
@[simp] theorem startRun_automatic (s : State) :
    (startRun s).automatic = s.automatic := rfl
@[simp] theorem startRun_keys (s : State) :
    (startRun s).keys = s.keys := rfl
@[simp] theorem startRun_period (s : State) :
    (startRun s).period = s.period := rfl

/-! ### placeWord -/

@[simp] theorem placeWord_regs (s : State) (w : Word) :
    (placeWord s w).regs = s.regs := rfl
@[simp] theorem placeWord_pc (s : State) (w : Word) :
    (placeWord s w).pc = s.pc := rfl
@[simp] theorem placeWord_latches (s : State) (w : Word) :
    (placeWord s w).latches = s.latches := rfl
@[simp] theorem placeWord_stepNo (s : State) (w : Word) :
    (placeWord s w).stepNo = .s1 := rfl
@[simp] theorem placeWord_running (s : State) (w : Word) :
    (placeWord s w).running = true := rfl
@[simp] theorem placeWord_exitFlag (s : State) (w : Word) :
    (placeWord s w).exitFlag = s.exitFlag := rfl
@[simp] theorem placeWord_mem (s : State) (w : Word) :
    (placeWord s w).mem = if s.pc.toNat < Config.romEnd then s.mem.store s.pc.toNat w else s.mem := rfl
@[simp] theorem placeWord_kbd (s : State) (w : Word) :
    (placeWord s w).kbd = s.kbd := rfl
@[simp] theorem placeWord_startup (s : State) (w : Word) :
    (placeWord s w).startup = s.startup := rfl
@[simp] theorem placeWord_resetSwitch (s : State) (w : Word) :
    (placeWord s w).resetSwitch = false := rfl
@[simp] theorem placeWord_automatic (s : State) (w : Word) :
    (placeWord s w).automatic = true := rfl
@[simp] theorem placeWord_keys (s : State) (w : Word) :
    (placeWord s w).keys = s.keys := rfl
@[simp] theorem placeWord_period (s : State) (w : Word) :
    (placeWord s w).period = s.period := rfl

/-! ### latchAll -/

@[simp] theorem latchAll_regs (c : Control) (s : State) (busData : Word) (m : Memory) (k : Keyboard) :
    (latchAll c s busData m k).regs = if c.f then s.regs.write c.c s.latches.ry else s.regs := rfl
@[simp] theorem latchAll_pc (c : Control) (s : State) (busData : Word) (m : Memory) (k : Keyboard) :
    (latchAll c s busData m k).pc = if c.p then pcMux c.h s else s.pc := rfl
@[simp] theorem latchAll_latches (c : Control) (s : State) (busData : Word) (m : Memory) (k : Keyboard) :
    (latchAll c s busData m k).latches = ⟨if c.i then busData else s.latches.ir, s.x c.a, s.x c.b,
      aluOut c.j s.latches.ra (rbMux c.e s), ryMux c.g s busData, s.latches.rb⟩ := rfl
@[simp] theorem latchAll_stepNo (c : Control) (s : State) (busData : Word) (m : Memory) (k : Keyboard) :
    (latchAll c s busData m k).stepNo = s.stepNo.advance := rfl
@[simp] theorem latchAll_running (c : Control) (s : State) (busData : Word) (m : Memory) (k : Keyboard) :
    (latchAll c s busData m k).running = s.running := rfl
@[simp] theorem latchAll_exitFlag (c : Control) (s : State) (busData : Word) (m : Memory) (k : Keyboard) :
    (latchAll c s busData m k).exitFlag = s.exitFlag := rfl
@[simp] theorem latchAll_mem (c : Control) (s : State) (busData : Word) (m : Memory) (k : Keyboard) :
    (latchAll c s busData m k).mem = m := rfl
@[simp] theorem latchAll_kbd (c : Control) (s : State) (busData : Word) (m : Memory) (k : Keyboard) :
    (latchAll c s busData m k).kbd = k := rfl
@[simp] theorem latchAll_startup (c : Control) (s : State) (busData : Word) (m : Memory) (k : Keyboard) :
    (latchAll c s busData m k).startup = s.startup := rfl
@[simp] theorem latchAll_resetSwitch (c : Control) (s : State) (busData : Word) (m : Memory) (k : Keyboard) :
    (latchAll c s busData m k).resetSwitch = s.resetSwitch := rfl
@[simp] theorem latchAll_automatic (c : Control) (s : State) (busData : Word) (m : Memory) (k : Keyboard) :
    (latchAll c s busData m k).automatic = s.automatic := rfl
@[simp] theorem latchAll_keys (c : Control) (s : State) (busData : Word) (m : Memory) (k : Keyboard) :
    (latchAll c s busData m k).keys = s.keys.drop 1 := rfl
@[simp] theorem latchAll_period (c : Control) (s : State) (busData : Word) (m : Memory) (k : Keyboard) :
    (latchAll c s busData m k).period = s.period + 1 := rfl

end Sys2Proof.Machine
end

