-- ==== Sys2Proof/Laws/Memory.lean ====
section
/-!
SUPPORT. Memory: read after write, and the canonical form, which every memory operation keeps (20_memory.md R50 to R65).
-/

namespace Sys2Proof.Machine

/-! ### Read after write -/

/-- A word stored is the word listed. -/
@[simp] theorem lookup_store_self (m : Memory) (a : Nat) (v : Word) : (m.store a v).lookup a = some v := by
  induction m with
  | nil => simp [Memory.store, Memory.lookup]
  | cons e m ih =>
    simp only [Memory.store]
    split
    · simp [Memory.lookup]
    · split
      · simp [Memory.lookup]
      · rw [Memory.lookup, if_neg (by omega), ih]

/-- A store leaves every other address alone. -/
theorem lookup_store_of_ne (m : Memory) {a b : Nat} (v : Word) (h : b ≠ a) :
    (m.store a v).lookup b = m.lookup b := by
  induction m with
  | nil => simp [Memory.store, Memory.lookup, h.symm]
  | cons e m ih =>
    simp only [Memory.store]
    split
    · simp [Memory.lookup, h.symm]
    · split
      · next h1 => subst h1; simp [Memory.lookup, h.symm]
      · simp [Memory.lookup, ih]

/-! ### The canonical form -/

theorem wfFrom_mono {lo lo' : Nat} {m : Memory} (h : m.wfFrom lo = true) (hl : lo' ≤ lo) : m.wfFrom lo' = true := by
  cases m with
  | nil => rfl
  | cons e m =>
    simp only [Memory.wfFrom, Bool.and_eq_true, decide_eq_true_eq] at h ⊢
    exact ⟨⟨by omega, h.1.2⟩, h.2⟩

theorem wfFrom_store {lo a : Nat} {m : Memory} (v : Word) (h : m.wfFrom lo = true) (hlo : lo ≤ a)
    (ha : a < Config.displayEnd) : (m.store a v).wfFrom lo = true := by
  induction m generalizing lo with
  | nil => simp [Memory.store, Memory.wfFrom, hlo, ha]
  | cons e m ih =>
    simp only [Memory.wfFrom, Bool.and_eq_true, decide_eq_true_eq] at h
    simp only [Memory.store]
    split
    · simp only [Memory.wfFrom, Bool.and_eq_true, decide_eq_true_eq]
      exact ⟨⟨hlo, ha⟩, ⟨⟨by omega, h.1.2⟩, h.2⟩⟩
    · split
      · next h1 =>
        subst h1
        simp only [Memory.wfFrom, Bool.and_eq_true, decide_eq_true_eq]
        exact ⟨⟨hlo, ha⟩, h.2⟩
      · simp only [Memory.wfFrom, Bool.and_eq_true, decide_eq_true_eq]
        exact ⟨h.1, ih h.2 (by omega)⟩

/-- A store to a word of ROM, RAM or display keeps the canonical form. -/
theorem store_wf {a : Nat} {m : Memory} (v : Word) (h : m.wf = true) (ha : a < Config.displayEnd) :
    (m.store a v).wf = true :=
  wfFrom_store v h (Nat.zero_le a) ha

/-- Storing consecutive words of ROM, RAM or display keeps the canonical form. -/
theorem storeAll_wf {a : Nat} {m : Memory} (vs : List Word) (h : m.wf = true)
    (ha : a + vs.length ≤ Config.displayEnd) : (m.storeAll a vs).wf = true := by
  induction vs generalizing a m with
  | nil => exact h
  | cons v vs ih =>
    simp only [List.length_cons] at ha
    exact ih (store_wf v h (by omega)) (by omega)

/-- Storing consecutive words leaves every address before them alone and every address from their end on. -/
theorem lookup_storeAll_of_out {a b : Nat} (m : Memory) (vs : List Word) (h : b < a ∨ a + vs.length ≤ b) :
    (m.storeAll a vs).lookup b = m.lookup b := by
  induction vs generalizing a m with
  | nil => rfl
  | cons v vs ih =>
    simp only [List.length_cons] at h
    rw [Memory.storeAll, ih _ (by omega), lookup_store_of_ne _ _ (by omega)]

/-- Storing consecutive words lists each of them at its address. -/
theorem lookup_storeAll_of_in {a k : Nat} (m : Memory) (vs : List Word) (h : k < vs.length) :
    (m.storeAll a vs).lookup (a + k) = some vs[k] := by
  induction vs generalizing a k m with
  | nil => cases h
  | cons v vs ih =>
    cases k with
    | zero => exact (lookup_storeAll_of_out _ _ (.inl (Nat.lt_succ_self a))).trans (lookup_store_self m a v)
    | succ k =>
      have := ih (a := a + 1) (m.store a v) (Nat.lt_of_succ_lt_succ h)
      rwa [Nat.add_assoc, Nat.add_comm 1 k] at this

/-- The reset state's memory is in canonical form. -/
theorem reset_mem_wf : State.reset.mem.wf = true := rfl

/-! ### Words of the state -/

/-- A word's reading depends only on what memory lists at its address. -/
theorem word_congr {s t : State} {a : Nat} (h : t.mem.lookup a = s.mem.lookup a) : t.word a = s.word a := by
  simp [State.word, h]

/-- With memory unchanged every word is. -/
theorem word_of_mem_eq {s t : State} (h : t.mem = s.mem) (a : Nat) : t.word a = s.word a :=
  word_congr (by rw [h])

@[simp] theorem retire_word (s : State) (isRead : Bool) (l : Latches) (target : Word) (d : Reg) (v : Word) (a : Nat) :
    (retire s isRead l target d v).word a = s.word a := rfl

@[simp] theorem halt_word (s : State) (a : Nat) : (halt s).word a = s.word a := rfl

@[simp] theorem resetRegisters_word (s : State) (a : Nat) : (resetRegisters s).word a = s.word a := rfl

/-! ### The memory primitives -/

/-- The region of an address, by its bounds (R51). -/
theorem regionOf_spec (a : Word) :
    (a.toNat < 256 ∧ regionOf a = .rom) ∨ (256 ≤ a.toNat ∧ a.toNat < 320 ∧ regionOf a = .ram) ∨
      (320 ≤ a.toNat ∧ a.toNat < 336 ∧ regionOf a = .display) ∨ (a.toNat = 336 ∧ regionOf a = .keyboard) ∨
      (337 ≤ a.toNat ∧ regionOf a = .unmapped) := by
  unfold regionOf Config.romEnd Config.ramEnd Config.displayEnd Config.charInLoc
  by_cases h1 : a.toNat < 256
  · exact .inl ⟨h1, if_pos h1⟩
  · rw [if_neg h1]
    by_cases h2 : a.toNat < 320
    · exact .inr (.inl ⟨by omega, h2, if_pos h2⟩)
    · rw [if_neg h2]
      by_cases h3 : a.toNat < 336
      · exact .inr (.inr (.inl ⟨by omega, h3, if_pos h3⟩))
      · rw [if_neg h3]
        by_cases h4 : a.toNat = 336
        · exact .inr (.inr (.inr (.inl ⟨h4, if_pos h4⟩)))
        · exact .inr (.inr (.inr (.inr ⟨by omega, if_neg h4⟩)))

/-- All that a memory write can do: nothing to ROM, one word to RAM or display, else the fault (R63). -/
theorem memWrite_cases (s : State) (a v : Word) :
    (a.toNat < 256 ∧ memWrite s a v = .ok s.mem) ∨
      (256 ≤ a.toNat ∧ a.toNat < 336 ∧ memWrite s a v = .ok (s.mem.store a.toNat v)) ∨
      (336 ≤ a.toNat ∧ memWrite s a v = .error (.unmappedAccess a)) := by
  rcases regionOf_spec a with ⟨h, e⟩ | ⟨h, h', e⟩ | ⟨h, h', e⟩ | ⟨h, e⟩ | ⟨h, e⟩
  · exact .inl ⟨h, by simp only [memWrite, e]⟩
  · exact .inr (.inl ⟨h, by omega, by simp only [memWrite, e]⟩)
  · exact .inr (.inl ⟨by omega, h', by simp only [memWrite, e]⟩)
  · exact .inr (.inr ⟨by omega, by simp only [memWrite, e]⟩)
  · exact .inr (.inr ⟨by omega, by simp only [memWrite, e]⟩)

/-- All that a memory read can do: a stored word, the keyboard's word, else the fault (R62). -/
theorem memRead_cases (s : State) (key a : Word) :
    (a.toNat < 336 ∧ memRead s key a = .ok (s.word a.toNat)) ∨
      (a.toNat = 336 ∧ memRead s key a = .ok key) ∨
      (337 ≤ a.toNat ∧ memRead s key a = .error (.unmappedAccess a)) := by
  rcases regionOf_spec a with ⟨h, e⟩ | ⟨h, h', e⟩ | ⟨h, h', e⟩ | ⟨h, e⟩ | ⟨h, e⟩
  · exact .inl ⟨by omega, by simp only [memRead, e]⟩
  · exact .inl ⟨by omega, by simp only [memRead, e]⟩
  · exact .inl ⟨h', by simp only [memRead, e]⟩
  · exact .inr (.inl ⟨h, by simp only [memRead, e]⟩)
  · exact .inr (.inr ⟨h, by simp only [memRead, e]⟩)

/-- A memory write keeps the canonical form. -/
theorem memWrite_wf {s : State} {a v : Word} {m : Memory} (hs : s.mem.wf = true) (h : memWrite s a v = .ok m) :
    m.wf = true := by
  rcases memWrite_cases s a v with ⟨_, e⟩ | ⟨_, ha, e⟩ | ⟨_, e⟩ <;> rw [e] at h <;> cases h
  · exact hs
  · exact store_wf v hs ha

end Sys2Proof.Machine
end

