-- ==== Sys2Proof/Laws/Registers.lean ====
section
/-!
SUPPORT. Reading and writing general registers (10_state.md R21, R22).
-/

namespace Sys2Proof.Machine

@[simp] theorem read_r0 (f : RegFile) : f.read .r0 = 0 := rfl

@[simp] theorem write_r0 (f : RegFile) (v : Word) : f.write .r0 v = f := rfl

/-- A register written and read back: the word, or 0 for r0. -/
theorem read_write_self (f : RegFile) (r : Reg) (v : Word) :
    (f.write r v).read r = if r = .r0 then 0 else v := by
  cases r <;> rfl

/-- A write leaves every other register alone. -/
theorem read_write_of_ne (f : RegFile) {d r : Reg} (v : Word) (h : r ≠ d) :
    (f.write d v).read r = f.read r := by
  cases d <;> cases r <;> first | rfl | exact absurd rfl h

@[simp] theorem x_r0 (s : State) : s.x .r0 = 0 := rfl

@[simp] theorem retire_x_self (s : State) (isRead : Bool) (l : Latches) (target : Word) (d : Reg) (v : Word) :
    (retire s isRead l target d v).x d = if d = .r0 then 0 else v :=
  read_write_self s.regs d v

theorem retire_x_of_ne (s : State) (isRead : Bool) (l : Latches) (target : Word) {d r : Reg} (v : Word) (h : r ≠ d) :
    (retire s isRead l target d v).x r = s.x r :=
  read_write_of_ne s.regs v h

@[simp] theorem halt_x (s : State) (r : Reg) : (halt s).x r = s.x r := rfl

@[simp] theorem startRun_x (s : State) (r : Reg) : (startRun s).x r = s.x r := rfl

@[simp] theorem resetRegisters_x (s : State) (r : Reg) : (resetRegisters s).x r = 0 := by
  cases r <;> rfl

/-- Two register files that read alike are equal. -/
theorem RegFile.ext_read {f g : RegFile} (h : ∀ r, f.read r = g.read r) : f = g := by
  cases f; cases g
  have h1 := h .r1; have h2 := h .r2; have h3 := h .r3; have h4 := h .r4
  have h5 := h .r5; have h6 := h .r6; have h7 := h .r7
  simp only [RegFile.read] at h1 h2 h3 h4 h5 h6 h7
  subst h1 h2 h3 h4 h5 h6 h7
  rfl

end Sys2Proof.Machine
end

