-- ==== Sys2Proof/Laws/Exec.lean ====
section
/-!
SUPPORT. What an instruction, a clock period, a step and an operator's move can do, said once: every later proof cites
these and unfolds no meaning.
-/

namespace Sys2Proof.Machine

/-! ### The end of an instruction -/

/-- `retire` with nothing read from the keyboard leaves what `FiveSteps` says. -/
theorem retire_fiveSteps (s : State) (isRead : Bool) (l : Latches) (target : Word) (d : Reg) (v : Word) :
    FiveSteps isRead s (retire s isRead l target d v) :=
  ⟨rfl, rfl, rfl, rfl, rfl, rfl, rfl, rfl, rfl⟩

/-- An outcome that is `retire` completes with its register, word and target. -/
theorem retire_completes (s : State) (l : Latches) (target : Word) (d : Reg) (v : Word) :
    CompletesWith (.next (retire s false l target d v)) s d v target :=
  ⟨_, rfl, retire_x_self .., rfl, fun _ h => retire_x_of_ne _ _ _ _ _ h, fun _ => rfl, retire_fiveSteps ..⟩

/-! ### Shared operations of the families -/

/-- A register ALU instruction completes with the ALU's word in its destination (R120). -/
theorem registerAlu_completes (op : AluOp) (i : Instr) (rd rs rt : Reg) (s : State) :
    CompletesWith (registerAlu op i rd rs rt s) s rd (aluApply op (s.x rs) (s.x rt)) s.nextPc :=
  retire_completes ..

/-- A register-immediate instruction completes with the ALU's word in its destination (R160). -/
theorem immediateAlu_completes (op : AluOp) (i : Instr) (rd rs : Reg) (b : Word) (s : State) :
    CompletesWith (immediateAlu op i rd rs b s) s rd (aluApply op (s.x rs) b) s.nextPc :=
  retire_completes ..

/-- A branch completes, writes no register, and goes to its target when the compare delivers 1 (R150). -/
theorem compareAndBranch_completes (op : AluOp) (i : Instr) (rd rs : Reg) (imm : BitVec 6) (s : State) :
    CompletesWith (compareAndBranch op i rd rs imm s) s .r0 0
      (if aluApply op (s.x rd) (s.x rs) = 1 then s.nextPc + signedImm imm else s.nextPc) :=
  retire_completes ..

/-! ### Every instruction -/

/-- The memory an instruction leaves: as it was, or with one word stored in RAM or display. -/
def MemoryAfter (s : State) (m : Memory) : Prop :=
  m = s.mem ∨ ∃ a v, 256 ≤ a ∧ a < 336 ∧ m = s.mem.store a v

/-- The memory an instruction leaves is in canonical form if it was. -/
theorem MemoryAfter.wf {s : State} {m : Memory} (h : MemoryAfter s m) (hs : s.mem.wf = true) : m.wf = true := by
  rcases h with rfl | ⟨a, v, _, h2, rfl⟩
  · exact hs
  · exact store_wf v hs h2

/-- No instruction changes a word of ROM (R52, R69). -/
theorem MemoryAfter.rom {s : State} {m : Memory} (h : MemoryAfter s m) {a : Nat} (ha : a < 256) :
    m.lookup a = s.mem.lookup a := by
  rcases h with rfl | ⟨b, v, h1, _, rfl⟩
  · rfl
  · exact lookup_store_of_ne _ _ (by omega)

/-- All that an instruction can do when it answers a next state: `exit` halts with Startup off, and every other
instruction ends in `retire`, with memory as it was or one word of RAM or display stored. -/
theorem exec_next {i : Instr} {s t : State} (h : exec i s = .next t) :
    (i = .exit ∧ s.startup = false ∧ t = halt s) ∨
    (i ≠ .exit ∧ ∃ m isRead l target d v, MemoryAfter s m ∧ t = retire { s with mem := m } isRead l target d v) := by
  cases i
  case exit =>
    simp only [exec, execExit] at h
    split at h
    · cases h
    · next hs => cases h; exact .inl ⟨rfl, by simpa using hs, rfl⟩
  case stw rd rs imm =>
    refine .inr ⟨nofun, ?_⟩
    simp only [exec, execStw] at h
    rcases memWrite_cases s (effectiveAddress s rs imm) (s.x rd) with ⟨_, e⟩ | ⟨h1, h2, e⟩ | ⟨_, e⟩ <;>
      rw [e] at h <;> cases h
    · exact ⟨_, _, _, _, _, _, .inl rfl, rfl⟩
    · exact ⟨_, _, _, _, _, _, .inr ⟨_, _, h1, h2, rfl⟩, rfl⟩
  case ldw rd rs imm =>
    refine .inr ⟨nofun, ?_⟩
    simp only [exec, execLdw] at h
    split at h
    · cases h
    · cases h; exact ⟨_, _, _, _, _, _, .inl rfl, rfl⟩
  case reservedId17 => cases h
  case reservedId18 => cases h
  case reservedLtype => cases h
  all_goals (cases h; exact .inr ⟨nofun, _, _, _, _, _, _, .inl rfl, rfl⟩)

/-- An instruction is refused only if it is `exit` with Startup on. -/
theorem exec_refused {i : Instr} {s : State} {r : Refusal} (h : exec i s = .refused r) :
    i = .exit ∧ s.startup = true ∧ r = .exitWithStartupOn := by
  cases i
  case exit =>
    simp only [exec, execExit] at h
    split at h
    · next hs => cases h; exact ⟨rfl, hs, rfl⟩
    · cases h
  case stw => simp only [exec, execStw] at h; split at h <;> cases h
  case ldw => simp only [exec, execLdw] at h; split at h <;> cases h
  all_goals cases h

/-! ### One clock period -/

/-- All that a clock period can do when it answers a next state. -/
theorem clockPeriod_next {s t : State} (h : clockPeriod s = .next t) :
    ∃ n m, MemoryAfter s m ∧
      t = latchAll (controlSignals s.latches.ir s.stepNo s.latches.rz) s n m
        (kbdTick s.kbd (s.keyIn 1) (keyboardReadSignal (controlSignals s.latches.ir s.stepNo s.latches.rz) s)).1 := by
  unfold clockPeriod at h
  split at h
  · next o ho =>
    subst h
    unfold stepsStop at ho
    split at ho <;> first | cases ho | (split at ho <;> cases ho)
  · dsimp only at h
    split at h
    · cases h
    · cases h
    · next n m hn hm =>
      cases h
      refine ⟨n, m, ?_, rfl⟩
      unfold busWrite at hm
      split at hm
      · rcases memWrite_cases s s.latches.rz s.latches.rm with ⟨_, e⟩ | ⟨h1, h2, e⟩ | ⟨_, e⟩ <;> rw [e] at hm <;> cases hm
        · exact .inl rfl
        · exact .inr ⟨_, _, h1, h2, rfl⟩
      · cases hm; exact .inl rfl

/-- A period that answers a next state begins a run of periods. -/
theorem clockPeriods_succ {s t : State} (n : Nat) (h : clockPeriod s = .next t) :
    clockPeriods (n + 1) s = clockPeriods n t := by
  rw [clockPeriods, h]

/-! ### The controller -/

/-- A fetch that answers a word answers the word at PC. -/
theorem fetch_ok {s : State} {w : Word} (h : fetch s = .ok w) : w = s.word s.pc.toNat := by
  unfold fetch at h
  split at h <;> cases h
  rfl

/-- The controller executes instructions exactly under the conditions of R36. -/
theorem runMode_executing_iff (s : State) : s.runMode = .executing ↔ Executing s := by
  unfold State.runMode Executing
  cases s.resetSwitch <;> cases s.running <;> cases s.automatic <;> cases s.startup <;> cases s.exitFlag <;> simp

/-- What each mode says of the switches and flags. -/
theorem runMode_cases (s : State) :
    (s.resetSwitch = true ∧ s.runMode = .inReset) ∨
    (Executing s ∧ s.runMode = .executing) ∨
    (s.resetSwitch = false ∧ s.running = true ∧ s.automatic = false ∧ s.runMode = .disengaged) ∨
    (s.resetSwitch = false ∧ s.running = false ∧ s.startup = false ∧ s.runMode = .stopped) ∨
    (s.resetSwitch = false ∧ s.running = false ∧ s.startup = true ∧ s.exitFlag = true ∧ s.runMode = .startConflict) ∨
    (s.resetSwitch = false ∧ s.running = false ∧ s.startup = true ∧ s.exitFlag = false ∧ s.automatic = true ∧
      s.runMode = .starting) ∨
    (s.resetSwitch = false ∧ s.running = false ∧ s.startup = true ∧ s.exitFlag = false ∧ s.automatic = false ∧
      s.runMode = .disengaged) := by
  unfold State.runMode Executing
  cases s.resetSwitch <;> cases s.running <;> cases s.automatic <;> cases s.startup <;> cases s.exitFlag <;> simp

/-- All that a step can do when it answers a next state. -/
theorem step_next {s t : State} (h : step s = .next t) :
    (s.resetSwitch = true ∧ t = resetRegisters s) ∨
    (Executing s ∧ AtBoundary s ∧ ∃ w, fetch s = .ok w ∧ exec (decode w) s = .next t) ∨
    (Executing s ∧ ¬AtBoundary s ∧ clockPeriod s = .next t) ∨
    (s.resetSwitch = false ∧ s.running = false ∧ s.startup = false ∧ t = s) ∨
    (s.resetSwitch = false ∧ s.running = false ∧ s.startup = true ∧ s.exitFlag = false ∧ t = startRun s) := by
  unfold step runStep at h
  rcases runMode_cases s with ⟨h1, e⟩ | ⟨h1, e⟩ | ⟨h1, h2, h3, e⟩ | ⟨h1, h2, h3, e⟩ | ⟨h1, h2, h3, h4, e⟩ |
    ⟨h1, h2, h3, h4, h5, e⟩ | ⟨h1, h2, h3, h4, h5, e⟩ <;> rw [e] at h
  · cases h; exact .inl ⟨h1, rfl⟩
  · dsimp only [runExecuting] at h
    split at h
    · next hb =>
      unfold runInstruction at h
      split at h
      · cases h
      · next w hw => exact .inr (.inl ⟨h1, hb, w, hw, h⟩)
    · next hb => exact .inr (.inr (.inl ⟨h1, hb, h⟩))
  · cases h
  · cases h; exact .inr (.inr (.inr (.inl ⟨h1, h2, h3, rfl⟩)))
  · cases h
  · cases h; exact .inr (.inr (.inr (.inr ⟨h1, h2, h3, h4, rfl⟩)))
  · cases h

end Sys2Proof.Machine
end

