-- ==== Sys2Proof/Laws/Operands.lean ====
section
/-!
SUPPORT. Extended immediates and effective addresses in library terms (00_scope.md R10, 42_memory_access.md R140).
-/

namespace Sys2Proof.Machine

/-- The sign extension of a 6-bit field. -/
theorem signedImm_eq (f : BitVec 6) : signedImm f = f.signExtend 16 := rfl

/-- The zero extension of a 6-bit field. -/
theorem logicalImm_eq (f : BitVec 6) : logicalImm f = f.zeroExtend 16 := by
  apply BitVec.eq_of_toNat_eq
  simp [logicalImm, trunc16, zext6]

@[simp] theorem logicalImm_toNat (f : BitVec 6) : (logicalImm f).toNat = f.toNat := by
  rw [logicalImm_eq, BitVec.zeroExtend, BitVec.toNat_setWidth_of_le (by decide)]

/-- The sign extension of an 11-bit field. -/
theorem callImm_eq (f : BitVec 11) : callImm f = f.signExtend 16 := rfl

/-- A branch target in integers (R150, R155). -/
theorem branchTarget_eq (s : State) (f : BitVec 6) :
    s.nextPc + signedImm f = BitVec.ofInt 16 ((s.pc.toNat : Int) + 1 + f.toInt) := by
  rw [State.nextPc, signedImm, trunc16, sext6, BitVec.ofInt_add, BitVec.ofInt_add, BitVec.ofInt_natCast,
    BitVec.ofNat_toNat, BitVec.setWidth_eq]
  rfl

/-- A call target in integers (R110). -/
theorem callTarget_eq (s : State) (f : BitVec 11) :
    s.nextPc + callImm f = BitVec.ofInt 16 ((s.pc.toNat : Int) + 1 + f.toInt) := by
  rw [State.nextPc, callImm, trunc16, sext11, BitVec.ofInt_add, BitVec.ofInt_add, BitVec.ofInt_natCast,
    BitVec.ofNat_toNat, BitVec.setWidth_eq]
  rfl

/-- An effective address is the base plus the sign-extended offset, modulo 65536 (R140). -/
theorem effectiveAddress_eq (s : State) (base : Reg) (f : BitVec 6) :
    effectiveAddress s base f = s.x base + f.signExtend 16 :=
  aluAdd_eq _ _

/-- An effective address in integers (R61, R140). -/
theorem effectiveAddress_toInt (s : State) (base : Reg) (f : BitVec 6) :
    effectiveAddress s base f = BitVec.ofInt 16 ((s.x base).toInt + f.toInt) := by
  rw [effectiveAddress_eq, BitVec.ofInt_add, BitVec.ofInt_toInt]
  rfl

end Sys2Proof.Machine
end

