-- ==== Sys2Proof/Laws/PerInstr.lean ====
section
/-!
SUPPORT. Facts about every instruction as syntax, one lemma per constructor.
-/

namespace Sys2Proof.Laws

/-- The word of a well-formed instruction matches its own row of the opcode table: its fixed bits stand where the table's
mask has them (30_encoding.md R96). -/
def WordMatchesItsRow.Statement (i : Instr) : Prop :=
  i.wf = true → ∃ r ∈ opcodeRows, r.mnemonic = i.mnemonic ∧ encode i &&& r.mask = r.bits

theorem WordMatchesItsRow.call (imm : BitVec 11) : WordMatchesItsRow.Statement (.call imm) := fun _ =>
  ⟨⟨"call", 0x001F, 0x0000⟩, by decide, rfl, mask_ltype ..⟩

theorem WordMatchesItsRow.ret : WordMatchesItsRow.Statement .ret := fun _ =>
  ⟨⟨"ret", 0xFFFF, 0x0010⟩, by decide, rfl, by decide⟩

theorem WordMatchesItsRow.exit : WordMatchesItsRow.Statement .exit := fun _ =>
  ⟨⟨"exit", 0xFFFF, 0x8010⟩, by decide, rfl, by decide⟩

theorem WordMatchesItsRow.add (rd rs rt : Reg) : WordMatchesItsRow.Statement (.add rd rs rt) := fun _ =>
  ⟨⟨"add", 0x007F, 0x0001⟩, by decide, rfl, mask_rtype ..⟩

theorem WordMatchesItsRow.sub (rd rs rt : Reg) : WordMatchesItsRow.Statement (.sub rd rs rt) := fun _ =>
  ⟨⟨"sub", 0x007F, 0x0011⟩, by decide, rfl, mask_rtype ..⟩

theorem WordMatchesItsRow.mul (rd rs rt : Reg) : WordMatchesItsRow.Statement (.mul rd rs rt) := fun _ =>
  ⟨⟨"mul", 0x007F, 0x0021⟩, by decide, rfl, mask_rtype ..⟩

theorem WordMatchesItsRow.div (rd rs rt : Reg) : WordMatchesItsRow.Statement (.div rd rs rt) := fun _ =>
  ⟨⟨"div", 0x007F, 0x0031⟩, by decide, rfl, mask_rtype ..⟩

theorem WordMatchesItsRow.pow (rd rs rt : Reg) : WordMatchesItsRow.Statement (.pow rd rs rt) := fun _ =>
  ⟨⟨"pow", 0x007F, 0x0041⟩, by decide, rfl, mask_rtype ..⟩

theorem WordMatchesItsRow.mod (rd rs rt : Reg) : WordMatchesItsRow.Statement (.mod rd rs rt) := fun _ =>
  ⟨⟨"mod", 0x007F, 0x0051⟩, by decide, rfl, mask_rtype ..⟩

theorem WordMatchesItsRow.and (rd rs rt : Reg) : WordMatchesItsRow.Statement (.and rd rs rt) := fun _ =>
  ⟨⟨"and", 0x007F, 0x0061⟩, by decide, rfl, mask_rtype ..⟩

theorem WordMatchesItsRow.or (rd rs rt : Reg) : WordMatchesItsRow.Statement (.or rd rs rt) := fun _ =>
  ⟨⟨"or", 0x007F, 0x0071⟩, by decide, rfl, mask_rtype ..⟩

theorem WordMatchesItsRow.xor (rd rs rt : Reg) : WordMatchesItsRow.Statement (.xor rd rs rt) := fun _ =>
  ⟨⟨"xor", 0x007F, 0x0002⟩, by decide, rfl, mask_rtype ..⟩

theorem WordMatchesItsRow.xnor (rd rs rt : Reg) : WordMatchesItsRow.Statement (.xnor rd rs rt) := fun _ =>
  ⟨⟨"xnor", 0x007F, 0x0012⟩, by decide, rfl, mask_rtype ..⟩

theorem WordMatchesItsRow.ls (rd rs rt : Reg) : WordMatchesItsRow.Statement (.ls rd rs rt) := fun _ =>
  ⟨⟨"ls", 0x007F, 0x0022⟩, by decide, rfl, mask_rtype ..⟩

theorem WordMatchesItsRow.rs (rd rs rt : Reg) : WordMatchesItsRow.Statement (.rs rd rs rt) := fun _ =>
  ⟨⟨"rs", 0x007F, 0x0032⟩, by decide, rfl, mask_rtype ..⟩

theorem WordMatchesItsRow.lr (rd rs rt : Reg) : WordMatchesItsRow.Statement (.lr rd rs rt) := fun _ =>
  ⟨⟨"lr", 0x007F, 0x0042⟩, by decide, rfl, mask_rtype ..⟩

theorem WordMatchesItsRow.rr (rd rs rt : Reg) : WordMatchesItsRow.Statement (.rr rd rs rt) := fun _ =>
  ⟨⟨"rr", 0x007F, 0x0052⟩, by decide, rfl, mask_rtype ..⟩

theorem WordMatchesItsRow.stw (rd rs : Reg) (imm : BitVec 6) : WordMatchesItsRow.Statement (.stw rd rs imm) := fun _ =>
  ⟨⟨"stw", 0x000F, 0x0003⟩, by decide, rfl, mask_ctype ..⟩

theorem WordMatchesItsRow.ldw (rd rs : Reg) (imm : BitVec 6) : WordMatchesItsRow.Statement (.ldw rd rs imm) := fun _ =>
  ⟨⟨"ldw", 0x000F, 0x0004⟩, by decide, rfl, mask_ctype ..⟩

theorem WordMatchesItsRow.beq (rd rs : Reg) (imm : BitVec 6) : WordMatchesItsRow.Statement (.beq rd rs imm) := fun _ =>
  ⟨⟨"beq", 0x000F, 0x0005⟩, by decide, rfl, mask_ctype ..⟩

theorem WordMatchesItsRow.bne (rd rs : Reg) (imm : BitVec 6) : WordMatchesItsRow.Statement (.bne rd rs imm) := fun _ =>
  ⟨⟨"bne", 0x000F, 0x0006⟩, by decide, rfl, mask_ctype ..⟩

theorem WordMatchesItsRow.bgt (rd rs : Reg) (imm : BitVec 6) : WordMatchesItsRow.Statement (.bgt rd rs imm) := fun _ =>
  ⟨⟨"bgt", 0x000F, 0x0007⟩, by decide, rfl, mask_ctype ..⟩

theorem WordMatchesItsRow.blt (rd rs : Reg) (imm : BitVec 6) : WordMatchesItsRow.Statement (.blt rd rs imm) := fun _ =>
  ⟨⟨"blt", 0x000F, 0x0008⟩, by decide, rfl, mask_ctype ..⟩

theorem WordMatchesItsRow.addi (rd rs : Reg) (imm : BitVec 6) : WordMatchesItsRow.Statement (.addi rd rs imm) := fun _ =>
  ⟨⟨"addi", 0x000F, 0x0009⟩, by decide, rfl, mask_ctype ..⟩

theorem WordMatchesItsRow.muli (rd rs : Reg) (imm : BitVec 6) : WordMatchesItsRow.Statement (.muli rd rs imm) := fun _ =>
  ⟨⟨"muli", 0x000F, 0x000A⟩, by decide, rfl, mask_ctype ..⟩

theorem WordMatchesItsRow.divi (rd rs : Reg) (imm : BitVec 6) : WordMatchesItsRow.Statement (.divi rd rs imm) := fun _ =>
  ⟨⟨"divi", 0x000F, 0x000B⟩, by decide, rfl, mask_ctype ..⟩

theorem WordMatchesItsRow.andi (rd rs : Reg) (imm : BitVec 6) : WordMatchesItsRow.Statement (.andi rd rs imm) := fun _ =>
  ⟨⟨"andi", 0x000F, 0x000C⟩, by decide, rfl, mask_ctype ..⟩

theorem WordMatchesItsRow.ori (rd rs : Reg) (imm : BitVec 6) : WordMatchesItsRow.Statement (.ori rd rs imm) := fun _ =>
  ⟨⟨"ori", 0x000F, 0x000D⟩, by decide, rfl, mask_ctype ..⟩

theorem WordMatchesItsRow.lsi (rd rs : Reg) (imm : BitVec 6) : WordMatchesItsRow.Statement (.lsi rd rs imm) := fun _ =>
  ⟨⟨"lsi", 0x000F, 0x000E⟩, by decide, rfl, mask_ctype ..⟩

theorem WordMatchesItsRow.rsi (rd rs : Reg) (imm : BitVec 6) : WordMatchesItsRow.Statement (.rsi rd rs imm) := fun _ =>
  ⟨⟨"rsi", 0x000F, 0x000F⟩, by decide, rfl, mask_ctype ..⟩

theorem WordMatchesItsRow.reservedId17 (rd rs rt : Reg) : WordMatchesItsRow.Statement (.reservedId17 rd rs rt) := fun _ =>
  ⟨⟨"reserved.id17", 0x007F, 0x0062⟩, by decide, rfl, mask_rtype ..⟩

theorem WordMatchesItsRow.reservedId18 (rd rs rt : Reg) : WordMatchesItsRow.Statement (.reservedId18 rd rs rt) := fun _ =>
  ⟨⟨"reserved.id18", 0x007F, 0x0072⟩, by decide, rfl, mask_rtype ..⟩

theorem WordMatchesItsRow.reservedLtype (imm : BitVec 11) : WordMatchesItsRow.Statement (.reservedLtype imm) := fun _ =>
  ⟨⟨"reserved.ltype", 0x001F, 0x0010⟩, by decide, rfl, mask_ltype ..⟩

end Sys2Proof.Laws
end

