-- ==== Sys2Proof/Tests/Slice0.lean ====
section
/-!
SUPPORT. Tests. Expected values are those of spec/95_test_vectors.md (V<n>) or of the rule a comment names; words are written out
from the encoding tables of 30_encoding.md. Then one witness for each statement that has hypotheses.
-/

namespace Sys2Proof.Tests

open Sys2Proof.Machine

/-! ### Helpers -/

/-- A running processor about to begin the instruction `w` at address `pc`, all registers 0, no key held in its five periods. -/
def start (pc w : Word) : State := placeWord { State.reset with pc := pc, keys := [0, 0, 0, 0, 0] } w

/-- `s` with a register set. -/
def put (s : State) (r : Reg) (v : Word) : State := { s with regs := s.regs.write r v }

/-- `s` with a word of memory set. -/
def setWord (s : State) (a : Nat) (v : Word) : State := { s with mem := s.mem.store a v }

/-- `op r2, r3, r4` at address 0 with its two operands. -/
def two (w a b : Word) : State := put (put (start 0 w) .r3 a) .r4 b

/-- A branch on r2 and r3 at address 10. -/
def cmp (w a b : Word) : State := put (put (start 10 w) .r2 a) .r3 b

/-- One step leads to a state that satisfies `f`. -/
def after (s : State) (f : State → Bool) : Bool :=
  match step s with
  | .next t => f t
  | .fault _ | .refused _ => false

/-- What one step puts into r2. -/
def result (s : State) : Option Word :=
  match step s with
  | .next t => some (t.x .r2)
  | .fault _ | .refused _ => none

/-- One move of the operator leads to a state that satisfies `f`. -/
def moved (m : OperatorMove) (s : State) (f : State → Bool) : Bool :=
  match operate m s with
  | .next t => f t
  | .fault _ | .refused _ => false

/-! ### Well-formedness: the one check, and terms it refuses -/

/-- The word 0x0010 is `ret` (R91). -/
theorem test_wf_refuses_ret_as_reserved : (Instr.reservedLtype 0).wf = false := by decide

/-- The word 0x8010 is `exit` (R91). -/
theorem test_wf_refuses_exit_as_reserved : (Instr.reservedLtype 1024).wf = false := by decide

theorem test_wf_admits_reserved_neighbours : ((Instr.reservedLtype 1).wf && (Instr.reservedLtype 1023).wf && (Instr.reservedLtype 1025).wf && (Instr.reservedLtype 2047).wf) = true := by decide

/-! ### Decoding, one word or more for every row (V1 to V34, and words from R95) -/

/-- V2, V4. -/
theorem test_decode_call : decode 0b0000000001100000 = .call 3 ∧ decode 0b1000000000000000 = .call (-1024) := by decide

/-- V6. -/
theorem test_decode_ret : decode 0b0000000000010000 = .ret := by decide

/-- V7. -/
theorem test_decode_exit : decode 0b1000000000010000 = .exit := by decide

/-- R82, R89: sub-opcode 000, primary opcode 0001. -/
theorem test_decode_add : decode 0b0100111000000001 = .add .r2 .r3 .r4 ∧ decode 0b1110000010000001 = .add .r7 .r0 .r1 := by decide

/-- R82, R89: sub-opcode 001, primary opcode 0001. -/
theorem test_decode_sub : decode 0b0100111000010001 = .sub .r2 .r3 .r4 ∧ decode 0b1110000010010001 = .sub .r7 .r0 .r1 := by decide

/-- R82, R89: sub-opcode 010, primary opcode 0001. -/
theorem test_decode_mul : decode 0b0100111000100001 = .mul .r2 .r3 .r4 ∧ decode 0b1110000010100001 = .mul .r7 .r0 .r1 := by decide

/-- R82, R89: sub-opcode 011, primary opcode 0001. -/
theorem test_decode_div : decode 0b0100111000110001 = .div .r2 .r3 .r4 ∧ decode 0b1110000010110001 = .div .r7 .r0 .r1 := by decide

/-- R82, R89: sub-opcode 100, primary opcode 0001. -/
theorem test_decode_pow : decode 0b0100111001000001 = .pow .r2 .r3 .r4 ∧ decode 0b1110000011000001 = .pow .r7 .r0 .r1 := by decide

/-- R82, R89: sub-opcode 101, primary opcode 0001. -/
theorem test_decode_mod : decode 0b0100111001010001 = .mod .r2 .r3 .r4 ∧ decode 0b1110000011010001 = .mod .r7 .r0 .r1 := by decide

/-- R82, R89: sub-opcode 110, primary opcode 0001. -/
theorem test_decode_and : decode 0b0100111001100001 = .and .r2 .r3 .r4 ∧ decode 0b1110000011100001 = .and .r7 .r0 .r1 := by decide

/-- R82, R89: sub-opcode 111, primary opcode 0001. -/
theorem test_decode_or : decode 0b0100111001110001 = .or .r2 .r3 .r4 ∧ decode 0b1110000011110001 = .or .r7 .r0 .r1 := by decide

/-- R82, R89: sub-opcode 000, primary opcode 0010. -/
theorem test_decode_xor : decode 0b0100111000000010 = .xor .r2 .r3 .r4 ∧ decode 0b1110000010000010 = .xor .r7 .r0 .r1 := by decide

/-- R82, R89: sub-opcode 001, primary opcode 0010. -/
theorem test_decode_xnor : decode 0b0100111000010010 = .xnor .r2 .r3 .r4 ∧ decode 0b1110000010010010 = .xnor .r7 .r0 .r1 := by decide

/-- R82, R89: sub-opcode 010, primary opcode 0010. -/
theorem test_decode_ls : decode 0b0100111000100010 = .ls .r2 .r3 .r4 ∧ decode 0b1110000010100010 = .ls .r7 .r0 .r1 := by decide

/-- R82, R89: sub-opcode 011, primary opcode 0010. -/
theorem test_decode_rs : decode 0b0100111000110010 = .rs .r2 .r3 .r4 ∧ decode 0b1110000010110010 = .rs .r7 .r0 .r1 := by decide

/-- R82, R89: sub-opcode 100, primary opcode 0010. -/
theorem test_decode_lr : decode 0b0100111001000010 = .lr .r2 .r3 .r4 ∧ decode 0b1110000011000010 = .lr .r7 .r0 .r1 := by decide

/-- R82, R89: sub-opcode 101, primary opcode 0010. -/
theorem test_decode_rr : decode 0b0100111001010010 = .rr .r2 .r3 .r4 ∧ decode 0b1110000011010010 = .rr .r7 .r0 .r1 := by decide

/-- V21. -/
theorem test_decode_stw : decode 0b0101111111110011 = .stw .r2 .r7 (-1) := by decide

/-- V22, V23. -/
theorem test_decode_ldw : decode 0b1000100000000100 = .ldw .r4 .r2 0 ∧ decode 0b0001001000110100 = .ldw .r0 .r4 (-29) := by decide

/-- V24. -/
theorem test_decode_beq : decode 0b0000001111110101 = .beq .r0 .r0 (-1) := by decide

/-- V25. -/
theorem test_decode_bne : decode 0b0100001111010110 = .bne .r2 .r0 (-3) := by decide

/-- V26. -/
theorem test_decode_bgt : decode 0b0100110000010111 = .bgt .r2 .r3 1 := by decide

/-- V27. -/
theorem test_decode_blt : decode 0b0100111111101000 = .blt .r2 .r3 (-2) := by decide

/-- V28. -/
theorem test_decode_addi : decode 0b0100001000001001 = .addi .r2 .r0 (-32) := by decide

/-- V29. -/
theorem test_decode_muli : decode 0b0100100010101010 = .muli .r2 .r2 10 := by decide

/-- V30. -/
theorem test_decode_divi : decode 0b0100110000001011 = .divi .r2 .r3 0 := by decide

/-- V31. -/
theorem test_decode_andi : decode 0b0100111111111100 = .andi .r2 .r3 63 := by decide

/-- V32. -/
theorem test_decode_ori : decode 0b1010101111001101 = .ori .r5 .r2 60 := by decide

/-- V33. -/
theorem test_decode_lsi : decode 0b0100100001101110 = .lsi .r2 .r2 6 := by decide

/-- V34. -/
theorem test_decode_rsi : decode 0b1111111111111111 = .rsi .r7 .r7 63 := by decide

/-- V17, V19. -/
theorem test_decode_reservedId17 : decode 0b0000000001100010 = .reservedId17 .r0 .r0 .r0 ∧ decode 0b1111111111100010 = .reservedId17 .r7 .r7 .r7 := by decide

/-- V18, V20. -/
theorem test_decode_reservedId18 : decode 0b0000000001110010 = .reservedId18 .r0 .r0 .r0 ∧ decode 0b1111111111110010 = .reservedId18 .r7 .r7 .r7 := by decide

/-- V8, V10, V11. -/
theorem test_decode_reservedLtype : decode 0b0000000000110000 = .reservedLtype 1 ∧ decode 0b1000000000110000 = .reservedLtype 1025 ∧ decode 0b1111111111110000 = .reservedLtype 2047 := by decide

/-- A row has one word (R80, R96). -/
theorem test_table_word : decodeTableWord 16 0x4E01 = some (.add .r2 .r3 .r4) ∧ decodeTableWord 16 0x10000 = none ∧ decodeTableWord 24 0x4E01 = none := by decide

/-- The placed word is the first instruction that runs. -/
theorem test_fetch_word : step (State.reset.withFetchWord 16 0x4E01) = exec (.add .r2 .r3 .r4) (State.reset.withFetchWord 16 0x4E01) := rfl

/-- V13, V21, V3 as the table writes them (R170). -/
theorem test_written_form : showInstr (decode 0x4E01) = "add r2, r3, r4" ∧ showInstr (decode 0x5FF3) = "stw r2, -1(r7)" ∧ showInstr (decode 0xFFE0) = "call -1" := by decide

/-! ### Program control (V41 to V57) -/

/-- V47. -/
theorem test_call_last_word : after (start 255 0xE000) (fun t => t.x .r1 == 256 && t.pc == 0) = true := by decide

/-- V48. -/
theorem test_ret_follows_link : after (put (start 9 0x0010) .r1 5) (fun t => t.pc == 5 && t.x .r1 == 5) = true := by decide

/-- V52. -/
theorem test_ret_outside_rom : after (put (start 20 0x0010) .r1 65535) (fun t => t.pc == 65535) = true := by decide

/-- V53. -/
theorem test_exit_halts : after (setWord (put (start 9 0x8010) .r2 7) 256 5) (fun t => t.exitFlag && !t.running && t.x .r2 == 7 && t.word 256 == 5) = true := by decide

/-- R244, D22. -/
theorem test_exit_startup_on : exec .exit { start 9 0x8010 with startup := true } = .refused .exitWithStartupOn := rfl

/-- V54. -/
theorem test_fetch_outside_rom : step (start 256 0) = .fault (.fetchOutsideROM 256) := rfl

/-- V56. -/
theorem test_reserved_ltype : step (start 0 0x0030) = .fault (.reservedEncoding 0x0030) := rfl

/-- V57. -/
theorem test_reserved_id17 : step (start 0 0x0062) = .fault (.reservedEncoding 0x0062) := rfl

/-- V20. -/
theorem test_reserved_id18 : step (start 0 0xFFF2) = .fault (.reservedEncoding 0xFFF2) := rfl

/-! ### Register ALU (V101 to V203) -/

/-- V102. -/
theorem test_add_wraps : after (two 0x4E01 0x7FFF 1) (fun t => t.x .r2 == 0x8000 && t.x .r3 == 0x7FFF && t.pc == 1) = true := by decide

/-- V101. -/
theorem test_add_negative : after (two 0x4E01 7 0xFFFE) (fun t => t.x .r2 == 5 && t.x .r3 == 7 && t.pc == 1) = true := by decide

/-- V106. -/
theorem test_sub_borrows : after (two 0x4E11 0 1) (fun t => t.x .r2 == 0xFFFF && t.x .r3 == 0 && t.pc == 1) = true := by decide

/-- V109. -/
theorem test_sub_order : after (two 0x4E11 5 0xFFFD) (fun t => t.x .r2 == 8 && t.x .r3 == 5 && t.pc == 1) = true := by decide

/-- V112. -/
theorem test_mul_truncates : after (two 0x4E21 0x012C 0x012C) (fun t => t.x .r2 == 0x5F90 && t.x .r3 == 0x012C && t.pc == 1) = true := by decide

/-- V114. -/
theorem test_mul_signed : after (two 0x4E21 0xFFFD 7) (fun t => t.x .r2 == 0xFFEB && t.x .r3 == 0xFFFD && t.pc == 1) = true := by decide

/-- V119. -/
theorem test_div_toward_zero : after (two 0x4E31 0xFFF9 2) (fun t => t.x .r2 == 0xFFFD && t.x .r3 == 0xFFF9 && t.pc == 1) = true := by decide

/-- V132. -/
theorem test_pow_fits : after (two 0x4E41 10 9) (fun t => t.x .r2 == 0xCA00 && t.x .r3 == 10 && t.pc == 1) = true := by decide

/-- V146. -/
theorem test_mod_sign_of_dividend : after (two 0x4E51 0xFFF9 3) (fun t => t.x .r2 == 0xFFFF && t.x .r3 == 0xFFF9 && t.pc == 1) = true := by decide

/-- V147. -/
theorem test_mod_negative_divisor : after (two 0x4E51 7 0xFFFD) (fun t => t.x .r2 == 1 && t.x .r3 == 7 && t.pc == 1) = true := by decide

/-- V153. -/
theorem test_and_bits : after (two 0x4E61 0xF0F0 0x3C3C) (fun t => t.x .r2 == 0x3030 && t.x .r3 == 0xF0F0 && t.pc == 1) = true := by decide

/-- V155. -/
theorem test_or_bits : after (two 0x4E71 0xF0F0 0x3C3C) (fun t => t.x .r2 == 0xFCFC && t.x .r3 == 0xF0F0 && t.pc == 1) = true := by decide

/-- V157. -/
theorem test_xor_bits : after (two 0x4E02 0xF0F0 0x3C3C) (fun t => t.x .r2 == 0xCCCC && t.x .r3 == 0xF0F0 && t.pc == 1) = true := by decide

/-- V159. -/
theorem test_xnor_bits : after (two 0x4E12 0xF0F0 0x3C3C) (fun t => t.x .r2 == 0x3333 && t.x .r3 == 0xF0F0 && t.pc == 1) = true := by decide

/-- V164. -/
theorem test_ls_sixteen : after (two 0x4E22 1 16) (fun t => t.x .r2 == 0 && t.x .r3 == 1 && t.pc == 1) = true := by decide

/-- V165. -/
theorem test_ls_one : after (two 0x4E22 0x4001 1) (fun t => t.x .r2 == 0x8002 && t.x .r3 == 0x4001 && t.pc == 1) = true := by decide

/-- V172. -/
theorem test_rs_sign_fill : after (two 0x4E32 0x8000 15) (fun t => t.x .r2 == 0xFFFF && t.x .r3 == 0x8000 && t.pc == 1) = true := by decide

/-- V175. -/
theorem test_rs_three : after (two 0x4E32 0x4000 3) (fun t => t.x .r2 == 0x0800 && t.x .r3 == 0x4000 && t.pc == 1) = true := by decide

/-- V184. -/
theorem test_lr_four : after (two 0x4E42 0x1234 4) (fun t => t.x .r2 == 0x2341 && t.x .r3 == 0x1234 && t.pc == 1) = true := by decide

/-- V191. -/
theorem test_rr_four : after (two 0x4E52 0x1234 4) (fun t => t.x .r2 == 0x4123 && t.x .r3 == 0x1234 && t.pc == 1) = true := by decide

/-- V125. -/
theorem test_div_by_zero : result (two 0x4E31 5 0) = some (Config.divZero 5) := rfl

/-- V139. -/
theorem test_pow_overflow : result (two 0x4E41 2 31) = some (Config.powOvf 2 31) := rfl

/-- V188. -/
theorem test_lr_out_of_range : result (two 0x4E42 0x1234 16) = some (Config.rolOor 0x1234 16) := rfl

/-- V196. -/
theorem test_rr_out_of_range : result (two 0x4E52 0x0001 0xFFFC) = some (Config.rorOor 1 0xFFFC) := rfl

/-- `and r2, r2, r2`: both sources are read before the destination is written (R120). -/
theorem test_and_same_register_source : after (put (start 0 0x4961) .r2 21) (fun t => t.x .r2 == 21) = true := by decide

/-- `or r0, r3, r4`: the result is discarded (R22). -/
theorem test_or_into_r0 : after (put (put (start 0 0x0E71) .r3 5) .r4 6) (fun t => t.x .r0 == 0 && t.x .r3 == 5 && t.x .r4 == 6) = true := by decide

/-! ### Memory access and keyboard (V211 to V242) -/

/-- V211. -/
theorem test_stw_below_sp : after (put (put (start 0 0x5FF3) .r2 24) .r7 320) (fun t => t.word 319 == 24 && t.pc == 1) = true := by decide

/-- V217. -/
theorem test_stw_keyboard_address : step (put (put (start 0 0x4C03) .r2 1) .r3 336) = .fault (.unmappedAccess 336) := rfl

/-- V225. -/
theorem test_ldw_rom_data : after (setWord (put (start 0 0x8804) .r2 13) 13 72) (fun t => t.x .r4 == 72 && t.pc == 1) = true := by decide

/-- V241. -/
theorem test_ldw_r0_consumes_key : after { put (start 0 0x0C04) .r3 336 with kbd := ⟨.waitRead, 65⟩, keys := [65, 65, 65, 65, 65] } (fun t => t.x .r0 == 0 && t.kbd == ⟨.waitRelease, 0⟩) = true := by decide

/-- V501, periods 1 to 7. -/
theorem test_keyboard_stores_and_reads : kbdRun ⟨.reset, 0⟩ [(0, false), (0, false), (65, false), (65, false), (65, false), (65, false), (65, true)] =
    (⟨.waitRelease, 0⟩, [0, 0, 0, 0, 0, 0, 65]) := by decide

/-- V504, periods 1 to 6. -/
theorem test_keyboard_waits : kbdRun ⟨.waitRead, 65⟩ [(65, false), (0, false), (0, false), (66, false), (66, false), (66, true)] = (⟨.waitRelease, 0⟩, [0, 0, 0, 0, 0, 65]) := by decide

/-! ### Branches (V251 to V274) -/

/-- V251. -/
theorem test_beq_taken : after (cmp 0x4C45 5 5) (fun t => t.pc == 15) = true := by decide

/-- V252. -/
theorem test_beq_not_taken : after (cmp 0x4C45 5 6) (fun t => t.pc == 11) = true := by decide

/-- V256. -/
theorem test_bne_taken : after (cmp 0x4FD6 0xFFFF 0) (fun t => t.pc == 8) = true := by decide

/-- V255. -/
theorem test_bne_not_taken : after (cmp 0x4C46 5 5) (fun t => t.pc == 11) = true := by decide

/-- V257. -/
theorem test_bgt_signed : after (cmp 0x4C17 1 0xFFFF) (fun t => t.pc == 12) = true := by decide

/-- V258. -/
theorem test_bgt_equal : after (cmp 0x4C17 5 5) (fun t => t.pc == 11) = true := by decide

/-- V263. -/
theorem test_blt_signed : after (cmp 0x4FE8 0x8000 0x7FFF) (fun t => t.pc == 9) = true := by decide

/-- V264. -/
theorem test_blt_equal : after (cmp 0x4FE8 5 5) (fun t => t.pc == 11) = true := by decide

/-! ### Register-immediate ALU (V301 to V341) -/

/-- V301. -/
theorem test_addi_minus_one : after (put (start 0 0x4FF9) .r3 0) (fun t => t.x .r2 == 0xFFFF && t.x .r3 == 0 && t.pc == 1) = true := by decide

/-- V303. -/
theorem test_addi_least : after (put (start 0 0x4E09) .r3 0) (fun t => t.x .r2 == 0xFFE0 && t.x .r3 == 0 && t.pc == 1) = true := by decide

/-- V309. -/
theorem test_muli_truncates : after (put (start 0 0x4CAA) .r3 0x1B58) (fun t => t.x .r2 == 0x1170 && t.x .r3 == 0x1B58 && t.pc == 1) = true := by decide

/-- V313. -/
theorem test_muli_least : after (put (start 0 0x4E0A) .r3 0x7FFF) (fun t => t.x .r2 == 0x0020 && t.x .r3 == 0x7FFF && t.pc == 1) = true := by decide

/-- V314. -/
theorem test_divi_negative : after (put (start 0 0x4FCB) .r3 10) (fun t => t.x .r2 == 0xFFFE && t.x .r3 == 10 && t.pc == 1) = true := by decide

/-- V322. -/
theorem test_andi_zero_extends : after (put (start 0 0x4E0C) .r3 0xFFFF) (fun t => t.x .r2 == 0x0020 && t.x .r3 == 0xFFFF && t.pc == 1) = true := by decide

/-- V320. -/
theorem test_andi_mask : after (put (start 0 0x4FFC) .r3 0xABCD) (fun t => t.x .r2 == 0x000D && t.x .r3 == 0xABCD && t.pc == 1) = true := by decide

/-- V324. -/
theorem test_ori_high_bits_pass : after (put (start 0 0x4D5D) .r3 0xAB00) (fun t => t.x .r2 == 0xAB15 && t.x .r3 == 0xAB00 && t.pc == 1) = true := by decide

/-- V323. -/
theorem test_ori_greatest : after (put (start 0 0x4FFD) .r3 0) (fun t => t.x .r2 == 63 && t.x .r3 == 0 && t.pc == 1) = true := by decide

/-- V326. -/
theorem test_lsi_six : after (put (start 0 0x4C6E) .r3 5) (fun t => t.x .r2 == 320 && t.x .r3 == 5 && t.pc == 1) = true := by decide

/-- V334. -/
theorem test_rsi_sign_fill : after (put (start 0 0x4C4F) .r3 0xFF00) (fun t => t.x .r2 == 0xFFF0 && t.x .r3 == 0xFF00 && t.pc == 1) = true := by decide

/-- V318. -/
theorem test_divi_by_zero : result (put (start 0 0x4C0B) .r3 7) = some (Config.divZero 7) := rfl

/-- V331. -/
theorem test_lsi_out_of_range : result (put (start 0 0x4E0E) .r3 1) = some (Config.shlOor 1 32) := rfl

/-- V341. -/
theorem test_rsi_out_of_range : result (put (start 0 0x4FFF) .r3 0x8000) = some (Config.shrOor 0x8000 63) := rfl

/-! ### One clock period, the operator, the assembler -/

/-- The `call` of V41 in its step 4: IR holds 0x0060, PC has been incremented to 5. -/
def callStep4 : State := { start 5 0 with stepNo := .s4, latches := ⟨0x0060, 0, 0, 0, 0, 0⟩ }

/-- The note to V41: both transfers of step 4 read the old PC. -/
theorem test_call_step_four : after callStep4 (fun t => t.latches.ry == 5 && t.pc == 8 && t.stepNo == .s5 && t.x .r1 == 0) = true := by decide

/-- R28, R250. -/
theorem test_step_one_increments : after (start 7 0x0001) (fun t => t.pc == 8 && t.period == 5 && t.stepNo == .s1) = true := by decide

/-- V601. -/
theorem test_reset_mid_run : moved (.setReset true) { put (setWord (start 12 1) 256 15) .r2 7 with stepNo := .s3, kbd := ⟨.waitRead, 65⟩ }
    (fun t => t.x .r2 == 0 && t.pc == 0 && t.stepNo == .s0 && t.kbd == ⟨.reset, 0⟩ && !t.running && t.word 256 == 15) = true := by decide

/-- V603. -/
theorem test_startup_pulse : moved (.setStartup true) State.reset (fun t => t.running && t.stepNo == .s1 && t.pc == 0) = true := by decide

/-- V604. -/
theorem test_startup_automatic_off : step { State.reset with startup := true, automatic := false } = .refused .automaticOff := rfl

/-- V605. -/
theorem test_startup_while_exit : operate (.setStartup true) { State.reset with exitFlag := true } = .refused .startupWhileExit := rfl

/-- R222, R253 (d). -/
theorem test_load_rom_while_running : operate (.loadRom [0x8010]) (start 0 1) = .refused .romEditedDuringRun := rfl

/-- V405, V410. -/
theorem test_movia_words : assemblePseudo (.movia .r4 256) = some [0x804D, 0x906E, 0x900D] ∧ assemblePseudo (.movia .r2 (-1)) = some [0x43FD, 0x486E, 0x4BFD] := by decide

/-- R88, R186. -/
theorem test_immediate_out_of_field : assemblePseudo (.movi .r2 32) = none ∧ assemblePseudo (.moviu .r2 64) = none ∧ branchField 0 34 = none ∧ callField 0 1025 = none := by decide

/-- R184. -/
theorem test_malloc_upward : malloc [4, 1, 2] = [256, 260, 261] := by decide

/-! ### Witnesses: a state and operands that meet every hypothesis of a statement together, each clause at its boundary -/

theorem start_executing (pc w : Word) : Executing (start pc w) := ⟨rfl, rfl, rfl⟩

theorem start_atBoundary (pc w : Word) : AtBoundary (start pc w) := rfl

/-- The started processor is a good state. -/
theorem start_good (w : Word) : Inv (start 0 w) :=
  ⟨rfl, (by decide : (0 : Word) ≠ 0 ↔ KbdState.reset = .waitRead), rfl, rfl, nofun, nofun, nofun⟩

/-- A processor with a key waiting, at the `ldw r2, 0(r3)` of V236. -/
def keyWaiting : State := { put (start 0 0x4C04) .r3 336 with kbd := ⟨.waitRead, 65⟩ }

theorem witness_EncodeThenDecodeIsIdentity :
    (Instr.reservedLtype 1).wf = true ∧ (Instr.reservedLtype 2047).wf = true ∧ (Instr.call (-1024)).wf = true := by decide

theorem witness_DecodeIsTheFirstMatchingRow :
    ⟨"ret", 0xFFFF, 0x0010⟩ ∈ opcodeRows ∧ ⟨"reserved.ltype", 0x001F, 0x0010⟩ ∈ opcodeRows ∧
      (0x0010#16 &&& 0xFFFF#16 = 0x0010#16) ∧ (0x0010#16 &&& 0x001F#16 = 0x0010#16) := by decide

theorem witness_IdAndTypeFollowTheTable :
    (0xFFF0#16).toNat % 16 = 0 ∧ (0xFFF1#16).toNat % 16 = 1 ∧ (0xFFF2#16).toNat % 16 = 2 ∧ 3 ≤ (0xFFF3#16).toNat % 16 := by
  decide

theorem witness_StepRunsTheDecodedInstruction :
    Executing (start 255 0x4E01) ∧ AtBoundary (start 255 0x4E01) ∧ (start 255 0x4E01).pc.toNat < 256 ∧
      (Instr.add .r2 .r3 .r4).wf = true ∧ decode ((start 255 0x4E01).word 255) = .add .r2 .r3 .r4 ∧
      Executing callStep4 ∧ ¬AtBoundary callStep4 :=
  ⟨start_executing .., rfl, by decide, rfl, rfl, ⟨rfl, rfl, rfl⟩, nofun⟩

theorem witness_FetchOutsideRomFaults :
    (Executing (start 256 0) ∧ AtBoundary (start 256 0) ∧ 256 ≤ (start 256 0).pc.toNat) ∧
    (Executing (start 65535 0) ∧ AtBoundary (start 65535 0) ∧ 256 ≤ (start 65535 0).pc.toNat) :=
  ⟨⟨start_executing .., rfl, by decide⟩, ⟨start_executing .., rfl, by decide⟩⟩

theorem witness_ReservedWordsStopTheRun :
    Executing (start 255 0xFFF0) ∧ AtBoundary (start 255 0xFFF0) ∧ (start 255 0xFFF0).pc.toNat < 256 ∧
      (start 255 0xFFF0).word (start 255 0xFFF0).pc.toNat = 0xFFF0 ∧
      ((0xFFF0#16).toNat % 32 = 16 ∧ 0xFFF0#16 ≠ 0x0010 ∧ 0xFFF0#16 ≠ 0x8010) ∧
      (start 0 0x0062).word 0 = 0x0062 ∧ (0x0062#16).toNat % 128 = 98 ∧
      (start 0 0xFFF2).word 0 = 0xFFF2 ∧ (0xFFF2#16).toNat % 128 = 114 :=
  ⟨start_executing .., rfl, by decide, rfl, by decide, rfl, by decide, rfl, by decide⟩

theorem witness_ExitEndsTheRun : (start 9 0x8010).startup = false := rfl

theorem witness_DivModTruncate : (two 0x4E31 0x8000 0xFFFF).x .r4 ≠ 0 ∧ (two 0x4E31 5 0).x .r4 = 0 := by decide

theorem witness_PowerCases :
    (((two 0x4E41 0xFFFE 31).x .r4).toInt = (31 : Nat) ∧ ((two 0x4E41 0xFFFE 31).x .r3).toInt ^ 31 = -2 ^ 31) ∧
    (((two 0x4E41 0 0).x .r4).toInt = (0 : Nat) ∧ ((two 0x4E41 0 0).x .r3).toInt ^ 0 = 1) ∧
    (((two 0x4E41 2 31).x .r4).toInt = (31 : Nat) ∧ 2 ^ 31 - 1 < ((two 0x4E41 2 31).x .r3).toInt ^ 31) ∧
    ((two 0x4E41 2 0xFFFF).x .r4).toInt < 0 ∧ ((two 0x4E41 2 0x8000).x .r4).toInt < 0 := by decide

theorem witness_ShiftsByRegister :
    ((two 0x4E22 1 0).x .r4).toNat ≤ 31 ∧ ((two 0x4E22 1 31).x .r4).toNat ≤ 31 ∧
      32 ≤ ((two 0x4E22 1 32).x .r4).toNat ∧ 32 ≤ ((two 0x4E22 1 0xFFFF).x .r4).toNat := by decide

theorem witness_RotatesByRegister :
    ((two 0x4E42 1 0).x .r4).toNat ≤ 15 ∧ ((two 0x4E42 1 15).x .r4).toNat ≤ 15 ∧
      16 ≤ ((two 0x4E42 1 16).x .r4).toNat ∧ 16 ≤ ((two 0x4E42 1 0xFFFF).x .r4).toNat := by decide

theorem witness_DivideImmediate : (-32 : BitVec 6) ≠ 0 ∧ (31 : BitVec 6) ≠ 0 ∧ (0 : BitVec 6) = 0 := by decide

theorem witness_ShiftsByImmediate :
    (0 : BitVec 6).toNat ≤ 31 ∧ (31 : BitVec 6).toNat ≤ 31 ∧ 32 ≤ (32 : BitVec 6).toNat ∧ 32 ≤ (63 : BitVec 6).toNat := by
  decide

/-- R140, C4: the offset field 0x3F is -1 and the sum wraps at 0. -/
theorem test_effectiveAddress_sign_extends : effectiveAddress (put (start 0 0) .r3 256) .r3 0x3F = 255 ∧
    effectiveAddress (start 0 0) .r0 0x20 = 65504 := by decide

/-- Effective addresses at both ends of every clause of the store and load statements. -/
theorem witness_StoreByAddress :
    (effectiveAddress (start 0 0) .r0 0).toNat < 256 ∧ (effectiveAddress (put (start 0 0) .r3 256) .r3 (-1)).toNat < 256 ∧
    (256 ≤ (effectiveAddress (put (start 0 0) .r3 256) .r3 0).toNat ∧
      (effectiveAddress (put (start 0 0) .r3 256) .r3 0).toNat < 336) ∧
    (256 ≤ (effectiveAddress (put (start 0 0) .r3 336) .r3 (-1)).toNat ∧
      (effectiveAddress (put (start 0 0) .r3 336) .r3 (-1)).toNat < 336) ∧
    336 ≤ (effectiveAddress (put (start 0 0) .r3 336) .r3 0).toNat ∧ 336 ≤ (effectiveAddress (start 0 0) .r0 (-1)).toNat := by
  decide

theorem witness_LoadByAddress :
    (effectiveAddress (start 0 0) .r0 0).toNat < 336 ∧ (effectiveAddress (put (start 0 0) .r3 336) .r3 (-1)).toNat < 336 ∧
    (effectiveAddress (put (start 0 0) .r3 336) .r3 0).toNat = 336 ∧
    337 ≤ (effectiveAddress (put (start 0 0) .r3 336) .r3 1).toNat ∧ 337 ≤ (effectiveAddress (start 0 0) .r0 (-1)).toNat := by
  decide

theorem witness_LoadReturnsTheWordStored :
    ∃ t, 256 ≤ (effectiveAddress (put (start 0 0) .r3 335) .r3 0).toNat ∧
      (effectiveAddress (put (start 0 0) .r3 335) .r3 0).toNat < 336 ∧
      exec (.stw .r3 .r3 0) (put (start 0 0) .r3 335) = .next t ∧
      effectiveAddress t .r3 0 = effectiveAddress (put (start 0 0) .r3 335) .r3 0 :=
  ⟨_, by decide, by decide, rfl, rfl⟩

theorem witness_OnlyStoresChangeMemory :
    (∀ rd rs imm, Instr.add .r2 .r3 .r4 ≠ .stw rd rs imm) ∧ ∃ t, exec (.add .r2 .r3 .r4) (two 0x4E01 1 2) = .next t :=
  ⟨nofun, _, rfl⟩

theorem witness_StepKeepsRomAndSwitches : ∃ t, step (put (start 0 0x0003) .r0 1) = .next t := ⟨_, rfl⟩

theorem witness_MemoryFormIsCanonical :
    Memory.wf [(0, 7), (335, 8)] = true ∧ Memory.wf (Memory.store [(335, 8)] 0 7) = true ∧
      ∀ a, Memory.lookup [(0, 7), (335, 8)] a = Memory.lookup (Memory.store [(335, 8)] 0 7) a :=
  ⟨rfl, rfl, fun _ => rfl⟩

theorem witness_DisplayShowsTheStoredWord :
    (effectiveAddress (put (start 0 0) .r3 320) .r3 0).toNat = 320 + (0 : Fin 16).val ∧
      (effectiveAddress (put (start 0 0) .r3 335) .r3 0).toNat = 320 + (15 : Fin 16).val ∧ (0 : Fin 16) ≠ 15 := by decide

theorem witness_KeyboardTransitionTable :
    (65 : Word) ≠ 0 ∧ BufferHoldsKeyInState3 ⟨.waitRead, 65⟩ ∧ BufferHoldsKeyInState3 ⟨.waitPress, 0⟩ := by
  unfold BufferHoldsKeyInState3; decide

theorem witness_KeyboardReadTakesTheWaitingKey :
    (kbdRun keyWaiting.kbd [(keyWaiting.keyIn 1, false), (keyWaiting.keyIn 2, false), (keyWaiting.keyIn 3, false)]).1.q =
      .waitRead ∧
    (kbdRun (start 0 0).kbd [((start 0 0).keyIn 1, false), ((start 0 0).keyIn 2, false), ((start 0 0).keyIn 3, false)]).1.q ≠
      .waitRead := by decide

theorem witness_LoadedKeyIsZeroOrAKeyCode :
    Inv keyWaiting ∧ (effectiveAddress keyWaiting .r3 0).toNat = 336 :=
  ⟨⟨rfl, by unfold BufferHoldsKeyInState3; decide, rfl, rfl, nofun, nofun, nofun⟩, by decide⟩

theorem witness_NextKeyNeedsReleaseAndTwoEdges :
    (∀ p ∈ [((65 : Word), true), (66, true)], p.1 ≠ 0) ∧
    ∃ o ∈ (kbdRun ⟨.waitRelease, 0⟩ [(0, false), (66, false), (66, false), (66, true)]).2, o ≠ 0 :=
  ⟨by simp, 66, by decide, by decide⟩

theorem witness_CapturedKeyWaitsUntilRead : (65 : Word) ≠ 0 ∧ (66 : Word) ≠ 0 := by decide

theorem witness_KeyboardDoesNotMatterUnlessRead :
    (∀ rd rs imm, Instr.ldw .r2 .r3 (-1) = .ldw rd rs imm → (effectiveAddress keyWaiting rs imm).toNat ≠ 336) ∧
    (∃ t, exec (.ldw .r2 .r3 (-1)) keyWaiting = .next t) ∧
    (∀ rd rs imm, Instr.ldw .r2 .r3 1 = .ldw rd rs imm → (effectiveAddress keyWaiting rs imm).toNat ≠ 336) ∧
    (∃ f, exec (.ldw .r2 .r3 1) keyWaiting = .fault f) ∧
    (∃ r, exec .exit { keyWaiting with startup := true } = .refused r) :=
  ⟨fun _ _ _ h => by cases h; decide, ⟨_, rfl⟩, fun _ _ _ h => by cases h; decide, ⟨_, rfl⟩, ⟨_, rfl⟩⟩

theorem witness_FiveClockPeriodsAreOneInstruction :
    Executing (start 255 0x4E01) ∧ AtBoundary (start 255 0x4E01) ∧
      ((start 255 0x4E01).pc.toNat < 256 → decode ((start 255 0x4E01).word (start 255 0x4E01).pc.toNat) ≠ .exit) :=
  ⟨start_executing .., rfl, fun _ => by decide⟩

theorem witness_StartupPulseStartsTheProcessor :
    State.reset.resetSwitch = false ∧ State.reset.automatic = true ∧ State.reset.exitFlag = false ∧
      State.reset.running = false := by decide

theorem witness_RunCyclesThroughTheStandardConfigurations : State.reset.lights = standardConfiguration 0 := by decide

theorem witness_StoppedProcessorStaysAsItIs :
    State.reset.resetSwitch = false ∧ State.reset.running = false ∧ State.reset.startup = false := by decide

theorem witness_RunsOutsideTheModelAreRefused :
    (State.reset.resetSwitch = false ∧ { State.reset with startup := true }.startup = true) ∧
    ({ State.reset with running := true, automatic := false }.running = true ∧
      { State.reset with running := true, automatic := false }.automatic = false) ∧
    ({ State.reset with startup := true, exitFlag := true }.running = false ∧
      { State.reset with startup := true, exitFlag := true }.startup = true ∧
      { State.reset with startup := true, exitFlag := true }.exitFlag = true) := by decide

theorem witness_OnlyExitStopsTheClock :
    (Executing (start 9 0x8010) ∧ ∃ t, step (start 9 0x8010) = .next t) ∧
    (Executing (start 9 0x0001) ∧ ∃ t, step (start 9 0x0001) = .next t) :=
  ⟨⟨start_executing .., _, rfl⟩, ⟨start_executing .., _, rfl⟩⟩

theorem witness_StepKeepsInv : Inv (start 0 0x4E01) ∧ ∃ t, step (start 0 0x4E01) = .next t :=
  ⟨start_good _, _, rfl⟩

theorem witness_OperatorKeepsInv :
    Inv (start 0 0x4E01) ∧ (∃ t, operate (.setReset true) (start 0 0x4E01) = .next t) ∧
      ∃ t, operate (.setStartup true) (start 0 0x4E01) = .next t :=
  ⟨start_good _, ⟨_, rfl⟩, _, rfl⟩

theorem witness_ReachableStatesAreGood : ∃ t, operate (.setStartup true) State.reset = .next t ∧ Reachable t :=
  ⟨_, rfl, .operate (.setStartup true) .reset rfl⟩

theorem witness_MoveImmediatesLoadTheValue :
    (-32 : Int) ≤ -32 ∧ (-32 : Int) ≤ 31 ∧ (-32 : Int) ≤ 31 ∧ (31 : Int) ≤ 31 ∧
      (0 : Int) ≤ 0 ∧ (0 : Int) ≤ 63 ∧ (0 : Int) ≤ 63 ∧ (63 : Int) ≤ 63 := by decide

theorem witness_MoviaLoadsTwelveBits : Reg.r4 ≠ .r0 := by decide

theorem witness_SubiSubtracts :
    (-31 : Int) ≤ -31 ∧ (-31 : Int) ≤ 32 ∧ (-31 : Int) ≤ 32 ∧ (32 : Int) ≤ 32 ∧ (-32 : Int) < -31 ∧ (32 : Int) < 33 := by decide

theorem witness_BgeAndBleAreStrict : (-32 : Int) ≤ -32 ∧ (-32 : Int) ≤ 31 ∧ (31 : Int) ≤ 31 := by decide

theorem witness_BranchOnZero : (-32 : Int) ≤ -32 ∧ (-32 : Int) ≤ 31 ∧ (31 : Int) ≤ 31 := by decide

theorem witness_BrAlwaysBranchesAndNopDoesNothing : (-32 : Int) ≤ -32 ∧ (-32 : Int) ≤ 31 ∧ (31 : Int) ≤ 31 := by decide

theorem witness_DirectivesLayOutWords :
    0 < [4, 1, 2].length ∧ 2 < [4, 1, 2].length ∧ 0 < ['H', 'i', '!'].length ∧ 2 < ['H', 'i', '!'].length := by decide

theorem witness_LoadRomPlacesTheImage :
    State.reset.running = false ∧ (start 0 1).running = true ∧ 0 < (List.replicate 257 (1 : Word)).length ∧
      255 < (List.replicate 257 (1 : Word)).length ∧ [(1 : Word)].length ≤ 1 :=
  ⟨rfl, rfl, by rw [List.length_replicate]; decide, by rw [List.length_replicate]; decide, Nat.le_refl 1⟩

end Sys2Proof.Tests
end

section
/-!
Five clock periods of the datapath are one instruction (00_scope.md R13; 70_reset_and_hazards.md R247 to R250).
The proof composes the periods once for every word (`clockPeriods_five`) and then reads the composed transfers off the
control signal generator's table, one lemma per instruction type (`transfers_eq_exec`).
-/

namespace Sys2Proof

/-! ### Encoding the decoded instruction (R94, R95) -/

/-- A word is its R-type fields put together; likewise for the other two formats (R82 to R84). -/
theorem encodeRType_fields (w : Word) :
    encodeRType (fieldSub w) (fieldPrimary w) (fieldX w) (fieldY w) (fieldZ w) = w := by
  obtain ⟨d, s, t, u, p, rfl⟩ := word_fields w
  obtain ⟨hd, hs, ht, hu, hp⟩ := slice_rtype d s t u p
  simp only [encodeRType, fieldSub, fieldPrimary, fieldX, fieldY, fieldZ, hd, hs, ht, hu, hp, Reg.bits_ofBits]

theorem encodeCType_fields (w : Word) :
    encodeCType (fieldPrimary w) (fieldX w) (fieldY w) (fieldImm6 w) = w := by
  simp only [encodeCType, fieldPrimary, fieldX, fieldY, fieldImm6, Reg.bits_ofBits]
  refine BitVec.eq_of_getLsbD_eq fun i hi => ?_
  simp only [BitVec.getLsbD_append, BitVec.getLsbD_extractLsb']
  interval_cases i <;> simp

theorem encodeLType_fields (w : Word) :
    encodeLType (w.extractLsb' 4 1 ++ fieldPrimary w) (fieldImm11 w) = w := by
  simp only [encodeLType, fieldPrimary, fieldImm11]
  refine BitVec.eq_of_getLsbD_eq fun i hi => ?_
  simp only [BitVec.getLsbD_append, BitVec.getLsbD_extractLsb']
  interval_cases i <;> simp

theorem encode_decodeLType {w : Word} (h : fieldPrimary w = 0) : encode (decodeLType w) = w := by
  have hw := encodeLType_fields w
  rw [h] at hw
  unfold decodeLType
  split
  case isTrue h4 => rwa [h4] at hw
  case isFalse h4 =>
    have h4' : w.extractLsb' 4 1 = 1#1 := (BitVec.eq_zero_or_eq_one _).resolve_left h4
    rw [h4'] at hw
    split
    case isTrue hret => exact hret.symm
    case isFalse =>
      split
      case isTrue hexit => exact hexit.symm
      case isFalse => exact hw

theorem encode_decodeRType1 {w : Word} (h : fieldPrimary w = 1) : encode (decodeRType1 w) = w := by
  have hw := encodeRType_fields w
  rw [h] at hw
  unfold decodeRType1
  generalize fieldSub w = u at hw ⊢
  fin_cases u <;> exact hw

theorem encode_decodeRType2 {w : Word} (h : fieldPrimary w = 2) : encode (decodeRType2 w) = w := by
  have hw := encodeRType_fields w
  rw [h] at hw
  unfold decodeRType2
  generalize fieldSub w = u at hw ⊢
  fin_cases u <;> exact hw

/-- Every word is the word of the instruction it decodes to (R94, R95). -/
theorem encode_decode (w : Word) : encode (decode w) = w := by
  have hL := encode_decodeLType (w := w)
  have hR1 := encode_decodeRType1 (w := w)
  have hR2 := encode_decodeRType2 (w := w)
  have hC := encodeCType_fields w
  unfold decode
  generalize fieldPrimary w = p at hL hR1 hR2 hC ⊢
  fin_cases p
  · exact hL rfl
  · exact hR1 rfl
  · exact hR2 rfl
  all_goals exact hC

@[simp] theorem decoderId_encode (i : Instr) : decoderId (encode i) = i.id := by
  cases i <;> simp [decoderId, encode, Instr.id]

@[simp] theorem decoderType_encode (i : Instr) : decoderType (encode i) = i.type := by
  rw [decoderType, decoderId_encode]
  cases i <;> rfl

end Sys2Proof

namespace Sys2Proof.Machine

/-! ### The parts of a clock period -/

/-- Two states with the same fields are the same. -/
theorem state_ext {s t : State} (regs : s.regs = t.regs) (pc : s.pc = t.pc) (latches : s.latches = t.latches)
    (stepNo : s.stepNo = t.stepNo) (running : s.running = t.running) (exitFlag : s.exitFlag = t.exitFlag)
    (mem : s.mem = t.mem) (kbd : s.kbd = t.kbd) (startup : s.startup = t.startup)
    (resetSwitch : s.resetSwitch = t.resetSwitch) (automatic : s.automatic = t.automatic) (keys : s.keys = t.keys)
    (period : s.period = t.period) : s = t := by
  cases s
  cases t
  simp_all

/-- The instructions the source gives register transfers for: neither `exit` nor a reserved word (R112, R201, R248). -/
def hasTransfers : Instr → Bool
  | .exit | .reservedId17 _ _ _ | .reservedId18 _ _ _ | .reservedLtype _ => false
  | _ => true

theorem stepsStop_of_hasTransfers {s : State} (h : hasTransfers (decode s.latches.ir) = true) : stepsStop s = none := by
  unfold stepsStop
  cases s.stepNo
  case s0 | s1 => rfl
  all_goals dsimp only; split <;> simp_all [hasTransfers]

/-- A clock period of an instruction with register transfers, once its read and its write are known to succeed. -/
theorem clockPeriod_eq_latchAll {s : State} {c : Control} {n : Word} {m : Memory} {e : Bool}
    (hgo : stepsStop s = none) (hc : controlSignals s.latches.ir s.stepNo s.latches.rz = c)
    (he : keyboardReadSignal c s = e) (hr : busRead c s (kbdTick s.kbd (s.keyIn 1) e).2 = .ok n)
    (hw : busWrite c s = .ok m) :
    clockPeriod s = .next (latchAll c s n m (kbdTick s.kbd (s.keyIn 1) e).1) := by
  subst hc he
  simp only [clockPeriod, hgo, hr, hw]

/-- A clock period stops with the model fault of its read, else of its write (R201). -/
theorem clockPeriod_fault {s : State} {c : Control} {n : Word} {f : Fault} {e : Bool}
    (hgo : stepsStop s = none) (hc : controlSignals s.latches.ir s.stepNo s.latches.rz = c)
    (he : keyboardReadSignal c s = e)
    (h : busRead c s (kbdTick s.kbd (s.keyIn 1) e).2 = .error f ∨
      busRead c s (kbdTick s.kbd (s.keyIn 1) e).2 = .ok n ∧ busWrite c s = .error f) :
    clockPeriod s = .fault f := by
  subst hc he
  rcases h with hr | ⟨hr, hw⟩
  · simp only [clockPeriod, hgo, hr]
  · simp only [clockPeriod, hgo, hr, hw]

/-- Outside steps 1 and 4 a clock period neither reads nor writes memory (R249 `M`, `W`). -/
theorem clockPeriod_quiet {s : State} (hst : s.stepNo = .s2 ∨ s.stepNo = .s3 ∨ s.stepNo = .s5)
    (hgo : hasTransfers (decode s.latches.ir) = true) :
    clockPeriod s = .next (latchAll (controlSignals s.latches.ir s.stepNo s.latches.rz) s
      (Config.busIdle (s.period + 1)) s.mem (kbdTick s.kbd (s.keyIn 1) false).1) := by
  refine clockPeriod_eq_latchAll (stepsStop_of_hasTransfers hgo) rfl ?_ ?_ ?_ <;>
    rcases hst with h | h | h <;> simp [keyboardReadSignal, busRead, busWrite, controlSignals, h]

/-! ### Steps 1 to 3 -/

/-- The keyboard after `n` clock periods in which nothing reads it (R213, R218). -/
def idleKeyboard (s : State) : Nat → Keyboard
  | 0 => s.kbd
  | n + 1 => (kbdTick (idleKeyboard s n) (s.keyIn (n + 1)) false).1

/-- The state `n` clock periods into an instruction that began in `s`, between its steps 1 and 4: PC has gone on, and
the registers and memory are as they were. -/
def afterPeriods (s : State) (n : Nat) (st : StepNo) (l : Latches) : State :=
  { s with
    pc := s.nextPc
    latches := l
    stepNo := st
    kbd := idleKeyboard s n
    keys := s.keys.drop n
    period := s.period + n }

theorem afterPeriods_keyIn (s : State) (n : Nat) (st : StepNo) (l : Latches) :
    (afterPeriods s n st l).keyIn 1 = s.keyIn (n + 1) := by
  simp only [State.keyIn, afterPeriods, List.getElem?_drop, Nat.add_assoc, Nat.sub_self, Nat.add_zero,
    Nat.add_sub_cancel]

/-- RA's word: the register that signal `A` names (R249). -/
def operandA (s : State) (w : Word) : Word := s.x (controlA (decoderId w) (decoderType w) w)

/-- RB's word: the register that signal `B` names (R249). -/
def operandB (s : State) (w : Word) : Word := s.x (controlB (decoderId w) (decoderType w) w)

/-- RZ's word: what the ALU delivers for the two operands (R249 `E`, `J`). -/
def aluWord (s : State) (w : Word) : Word :=
  aluOut (controlJ (decoderId w) (decoderType w)) (operandA s w)
    (rbMux (controlE (decoderType w)) { s with latches := ⟨w, operandA s w, operandB s w, 0, 0, 0⟩ })

/-- The latches from the end of step 3 on: loading them again changes RY only. -/
def settled (s : State) (w y : Word) : Latches := ⟨w, operandA s w, operandB s w, aluWord s w, y, operandB s w⟩

/-- Step 1 fetches the word at PC into IR and moves PC on (R248). -/
theorem clockPeriod_step1 {s : State} {w : Word} (hb : AtBoundary s) (hf : fetch s = .ok w) :
    ∃ l, l.ir = w ∧ clockPeriod s = .next (afterPeriods s 1 .s2 l) := by
  have hb' : s.stepNo = .s1 := hb
  have hgo : stepsStop s = none := by rw [stepsStop, hb']
  obtain ⟨c, hc⟩ : ∃ c, controlSignals s.latches.ir s.stepNo s.latches.rz = c := ⟨_, rfl⟩
  have hread : keyboardReadSignal c s = false := by simp [← hc, keyboardReadSignal, controlSignals, hb']
  have hbus : busRead c s (kbdTick s.kbd (s.keyIn 1) false).2 = .ok w := by simp [← hc, busRead, controlSignals, hb', hf]
  have hmem : busWrite c s = .ok s.mem := by simp [← hc, busWrite, controlSignals, hb']
  refine ⟨(latchAll c s w s.mem s.kbd).latches, by simp [← hc, controlSignals, hb'], ?_⟩
  rw [clockPeriod_eq_latchAll hgo hc hread hbus hmem]
  simp [← hc, latchAll, afterPeriods, controlSignals, controlP, controlH, pcMux, idleKeyboard, StepNo.advance, hb']

/-- The fetch fault of step 1 (R64). -/
theorem clockPeriod_fetchFault {s : State} {f : Fault} (hb : AtBoundary s) (hf : fetch s = .error f) :
    clockPeriod s = .fault f := by
  have hb' : s.stepNo = .s1 := hb
  simp [clockPeriod, stepsStop, busRead, controlSignals, hb', hf]

/-- A reserved word stops in step 2 with its model fault (R201, R203). -/
theorem clockPeriod_reserved {s : State} (hst : s.stepNo = .s2)
    (hi : hasTransfers (decode s.latches.ir) = false) (hx : decode s.latches.ir ≠ .exit) :
    clockPeriod s = .fault (.reservedEncoding s.latches.ir) := by
  unfold clockPeriod stepsStop
  rw [hst]
  generalize decode s.latches.ir = i at hi hx ⊢
  cases i
  case exit => exact absurd rfl hx
  case reservedId17 | reservedId18 | reservedLtype => rfl
  all_goals cases hi

/-- What the latches load in a period that neither reads nor writes memory, with `y` for RY (R247, R248). -/
def loaded (s : State) (l : Latches) (y : Word) : Latches where
  ir := l.ir
  ra := operandA s l.ir
  rb := operandB s l.ir
  rz := aluOut (controlJ (decoderId l.ir) (decoderType l.ir)) l.ra
    (rbMux (controlE (decoderType l.ir)) { s with latches := l })
  ry := y
  rm := l.rb

/-- Every period but step 1's loads the latches so, `n` being on the memory bus (R248). -/
theorem latchAll_eq_loaded {s : State} {st : StepNo} (hst : st ≠ .s1) (rz n : Word) (m : Memory) (k : Keyboard) :
    (latchAll (controlSignals s.latches.ir st rz) s n m k).latches =
      loaded s s.latches (ryMux (controlG (decoderId s.latches.ir) (decoderType s.latches.ir)) s n) := by
  simp [controlSignals, loaded, operandA, operandB, hst]

/-- Steps 2 and 3 change latches only (R248). -/
theorem clockPeriod_load (s : State) (n : Nat) {st : StepNo} (l : Latches) (hst : st = .s2 ∨ st = .s3)
    (hgo : hasTransfers (decode l.ir) = true) :
    ∃ y, clockPeriod (afterPeriods s n st l) = .next (afterPeriods s (n + 1) st.advance (loaded s l y)) := by
  refine ⟨ryMux (controlG (decoderId l.ir) (decoderType l.ir)) (afterPeriods s n st l)
    (Config.busIdle (s.period + n + 1)), ?_⟩
  rw [clockPeriod_quiet (s := afterPeriods s n st l) (hst.imp_right .inl) hgo, afterPeriods_keyIn]
  have hne : st ≠ .s1 := by rcases hst with rfl | rfl <;> nofun
  refine congrArg _ (state_ext ?_ ?_ (latchAll_eq_loaded hne ..) rfl rfl rfl rfl rfl rfl rfl rfl List.drop_drop rfl)
  · rcases hst with rfl | rfl <;> rfl
  · rcases hst with rfl | rfl <;> rfl

/-- Steps 1 to 3 settle every latch but RY (R248): the operands pass from the registers through RA and RB to RZ and RM. -/
theorem clockPeriods_settle {s : State} {w : Word} (hb : AtBoundary s) (hf : fetch s = .ok w)
    (hgo : hasTransfers (decode w) = true) :
    ∃ y, clockPeriods 5 s = clockPeriods 2 (afterPeriods s 3 .s4 (settled s w y)) := by
  obtain ⟨l, rfl, h1⟩ := clockPeriod_step1 hb hf
  obtain ⟨y2, h2⟩ := clockPeriod_load s 1 l (.inl rfl) hgo
  obtain ⟨y3, h3⟩ := clockPeriod_load s 2 (loaded s l y2) (.inr rfl) hgo
  refine ⟨y3, ?_⟩
  calc clockPeriods 5 s
      = clockPeriods 4 (afterPeriods s 1 .s2 l) := clockPeriods_succ 4 h1
    _ = clockPeriods 3 (afterPeriods s 2 .s3 (loaded s l y2)) := clockPeriods_succ 3 h2
    _ = clockPeriods 2 (afterPeriods s 3 .s4 (settled s l.ir y3)) := clockPeriods_succ 2 h3

/-! ### Steps 4 and 5 -/

/-- The keyboard is read: a load whose address in RZ is the keyboard's (R211). -/
def readsKeyboard (s : State) (w : Word) : Bool :=
  decide (decoderId w = 20 ∧ regionOf (aluWord s w) = .keyboard)

/-- What step 4 reads (R248, R249 `M`). -/
def dataRead (s : State) (w : Word) : Except Fault Word :=
  if decoderId w = 20 then memRead s (kbdInstr s (readsKeyboard s w)).2 (aluWord s w)
  else .ok (Config.busIdle (s.period + 4))

/-- The memory step 4 leaves (R248, R249 `W`). -/
def dataWritten (s : State) (w : Word) : Except Fault Memory :=
  if decoderId w = 19 then memWrite s (aluWord s w) (operandB s w) else .ok s.mem

/-- PC at the end of step 4 (R248, R249 `H`, `P`). -/
def stepTarget (s : State) (w : Word) : Word :=
  if controlP (decoderType w) .s4 (aluWord s w) then
    pcMux (controlH (decoderId w) (decoderType w) .s4) (afterPeriods s 3 .s4 (settled s w 0))
  else s.nextPc

/-- RY's word at the end of a period in which PC holds `pc` and memory returns `n` (R249 `G`). -/
def writeBack (s : State) (w pc n : Word) : Word :=
  ryMux (controlG (decoderId w) (decoderType w)) { s with pc := pc, latches := settled s w 0 } n

/-- The register transfers of steps 1 to 5 composed, for the word `w` (R248). -/
def transfers (s : State) (w : Word) : Host.Outcome State Fault Refusal :=
  match dataRead s w, dataWritten s w with
  | .error f, _ => .fault f
  | .ok _, .error f => .fault f
  | .ok n, .ok m =>
    .next (retire { s with mem := m } (readsKeyboard s w)
      (settled s w (writeBack s w (stepTarget s w) (Config.busIdle (s.period + 5)))) (stepTarget s w)
      (controlC (decoderId w) (decoderType w) w) (writeBack s w s.nextPc n))

section Step4
variable (s : State) (w y : Word)

theorem keyboardReadSignal_step4 :
    keyboardReadSignal (controlSignals w .s4 (aluWord s w)) (afterPeriods s 3 .s4 (settled s w y)) =
      readsKeyboard s w := by
  simp [keyboardReadSignal, controlSignals, readsKeyboard, afterPeriods, settled]

theorem busRead_step4 :
    busRead (controlSignals w .s4 (aluWord s w)) (afterPeriods s 3 .s4 (settled s w y))
      (kbdInstr s (readsKeyboard s w)).2 = dataRead s w := by
  by_cases hid : decoderId w = 20 <;> simp [busRead, controlSignals, dataRead, hid] <;> rfl

theorem busWrite_step4 :
    busWrite (controlSignals w .s4 (aluWord s w)) (afterPeriods s 3 .s4 (settled s w y)) = dataWritten s w := by
  by_cases hid : decoderId w = 19 <;> simp [busWrite, controlSignals, dataWritten, hid] <;> rfl

end Step4

/-- The state at the end of step 4, with `n` read and memory `m` left. -/
def afterStep4 (s : State) (w n : Word) (m : Memory) : State :=
  { s with
    pc := stepTarget s w
    latches := settled s w (writeBack s w s.nextPc n)
    stepNo := .s5
    mem := m
    kbd := (kbdTick (idleKeyboard s 3) (s.keyIn 4) (readsKeyboard s w)).1
    keys := s.keys.drop 4
    period := s.period + 4 }

theorem afterStep4_keyIn (s : State) (w n : Word) (m : Memory) : (afterStep4 s w n m).keyIn 1 = s.keyIn 5 := by
  simp only [State.keyIn, afterStep4, List.getElem?_drop, Nat.add_assoc]

/-- Step 4 reads or writes memory, moves PC and loads RY (R248). -/
theorem clockPeriod_step4 {s : State} {w n : Word} {m : Memory} (y : Word) (hgo : hasTransfers (decode w) = true)
    (hr : dataRead s w = .ok n) (hw : dataWritten s w = .ok m) :
    clockPeriod (afterPeriods s 3 .s4 (settled s w y)) = .next (afterStep4 s w n m) := by
  have hgo4 : stepsStop (afterPeriods s 3 .s4 (settled s w y)) = none := stepsStop_of_hasTransfers hgo
  have hkey := afterPeriods_keyIn s 3 .s4 (settled s w y)
  have hbus := (busRead_step4 s w y).trans hr
  have hmem := (busWrite_step4 s w y).trans hw
  rw [clockPeriod_eq_latchAll hgo4 rfl (keyboardReadSignal_step4 s w y) (by rw [hkey]; exact hbus) hmem, hkey]
  exact congrArg _ (state_ext rfl rfl (latchAll_eq_loaded (st := .s4) nofun ..) rfl rfl rfl rfl rfl rfl rfl rfl
    List.drop_drop rfl)

/-- Where the write signal `F` is off, `C` names r0, whose write has no effect (R22, R249). -/
theorem write_step5 (f : RegFile) (w v rz : Word) :
    (if (controlSignals w .s5 rz).f then f.write (controlSignals w .s5 rz).c v else f) =
      f.write (controlC (decoderId w) (decoderType w) w) v := by
  split
  case isTrue => rfl
  case isFalse hf =>
    simp only [controlSignals, decide_eq_true_eq, true_and, not_or] at hf
    obtain ⟨h1, h2, h20, h5, h6⟩ := hf
    have hid : decoderId w ≠ 1 := fun h => h1 (by rw [decoderType, h]; rfl)
    simp only [controlC, hid, h2, h20, h5, h6, or_self, if_false, write_r0]

/-- Step 5 writes the register (R248). -/
theorem clockPeriod_step5 {s : State} {w : Word} (n : Word) (m : Memory) (hgo : hasTransfers (decode w) = true) :
    clockPeriod (afterStep4 s w n m) = .next (retire { s with mem := m } (readsKeyboard s w)
      (settled s w (writeBack s w (stepTarget s w) (Config.busIdle (s.period + 5)))) (stepTarget s w)
      (controlC (decoderId w) (decoderType w) w) (writeBack s w s.nextPc n)) := by
  rw [clockPeriod_quiet (s := afterStep4 s w n m) (.inr (.inr rfl)) hgo, afterStep4_keyIn]
  exact congrArg _ (state_ext (write_step5 ..) rfl (latchAll_eq_loaded (st := .s5) nofun ..) rfl rfl rfl rfl rfl rfl
    rfl rfl List.drop_drop rfl)

/-- The simulation, for every word with register transfers: five periods compose to `transfers`, model faults included. -/
theorem clockPeriods_five {s : State} {w : Word} (hb : AtBoundary s) (hf : fetch s = .ok w)
    (hgo : hasTransfers (decode w) = true) : clockPeriods 5 s = transfers s w := by
  obtain ⟨y, h⟩ := clockPeriods_settle hb hf hgo
  have hgo4 : stepsStop (afterPeriods s 3 .s4 (settled s w y)) = none := stepsStop_of_hasTransfers hgo
  have he := keyboardReadSignal_step4 s w y
  have hbus := busRead_step4 s w y
  have hmem := busWrite_step4 s w y
  rw [h, transfers]
  cases hr : dataRead s w with
  | error f =>
    have h4 := clockPeriod_fault (n := 0) hgo4 rfl he (.inl (by rw [afterPeriods_keyIn]; exact hbus.trans hr))
    rw [clockPeriods, h4]
  | ok n =>
    cases hw : dataWritten s w with
    | error f =>
      have h4 := clockPeriod_fault hgo4 rfl he
        (.inr ⟨by rw [afterPeriods_keyIn]; exact hbus.trans hr, hmem.trans hw⟩)
      rw [clockPeriods, h4]
    | ok m =>
      rw [clockPeriods_succ 1 (clockPeriod_step4 y hgo hr hw), clockPeriods_succ 0 (clockPeriod_step5 n m hgo)]
      rfl

/-! ### The composed transfers are the instruction's meaning -/

/-- The IDs that the generator's table singles out are not those of types 2, 4, 5 and 6 (R89, R249). -/
theorem id_of_type {i : Instr} (h : i.type = 2 ∨ i.type = 4 ∨ i.type = 5 ∨ i.type = 6) :
    i.id ≠ 1 ∧ i.id ≠ 2 ∧ i.id ≠ 19 ∧ i.id ≠ 20 := by
  cases i <;> simp_all [Instr.type, Instr.id]

section Types
variable (s : State) {i : Instr} {op : AluOp} {rd rs rt : Reg} {imm : BitVec 6}

/-- Every instruction but `ldw` and `stw` ends in `retire`, with memory and the keyboard untouched. -/
theorem transfers_of_noAccess (h19 : i.id ≠ 19) (h20 : i.id ≠ 20) :
    transfers s (encode i) = .next (retire s false
      (settled s (encode i) (writeBack s (encode i) (stepTarget s (encode i)) (Config.busIdle (s.period + 5))))
      (stepTarget s (encode i)) (controlC i.id i.type (encode i))
      (writeBack s (encode i) s.nextPc (Config.busIdle (s.period + 4)))) := by
  simp [transfers, dataRead, dataWritten, readsKeyboard, h19, h20]

/-- Type 2 (R120). -/
theorem transfers_registerAlu (hty : i.type = 2) (hop : aluOfId i.id = some op) (hx : fieldX (encode i) = rd)
    (hy : fieldY (encode i) = rs) (hz : fieldZ (encode i) = rt) :
    transfers s (encode i) = registerAlu op i rd rs rt s := by
  obtain ⟨h1, h2, h19, h20⟩ := id_of_type (.inl hty)
  have hA : operandA s (encode i) = s.x rs := by simp [operandA, controlA, h2, hty, hy]
  have hB : operandB s (encode i) = s.x rt := by simp [operandB, controlB, hty, hz]
  have hZ : aluWord s (encode i) = aluApply op (s.x rs) (s.x rt) := by
    simp [aluWord, hA, hB, controlE, controlJ, rbMux, aluOut, h2, hty, hop]
  have hY (pc n : Word) : writeBack s (encode i) pc n = aluApply op (s.x rs) (s.x rt) := by
    simp [writeBack, controlG, ryMux, settled, hZ, h1, h20, hty]
  have hT : stepTarget s (encode i) = s.nextPc := by simp [stepTarget, controlP, hty]
  have hC : controlC i.id i.type (encode i) = rd := by simp [controlC, h1, hty, hx]
  rw [transfers_of_noAccess s h19 h20, hT, hC, hY, hY, settled, hA, hB, hZ, registerAlu]

/-- Types 5 and 6 (R160); `b` is the immediate as the type extends it. -/
theorem transfers_immediateAlu {b : Word}
    (hb : i.type = 5 ∧ signedImm (fieldImm6 (encode i)) = b ∨ i.type = 6 ∧ logicalImm (fieldImm6 (encode i)) = b)
    (hop : aluOfId i.id = some op) (hx : fieldX (encode i) = rd) (hy : fieldY (encode i) = rs) :
    transfers s (encode i) = immediateAlu op i rd rs b s := by
  have hty : i.type = 5 ∨ i.type = 6 := hb.imp And.left And.left
  obtain ⟨h1, h2, h19, h20⟩ := id_of_type (.inr (.inr hty))
  have hA : operandA s (encode i) = s.x rs := by rcases hty with h | h <;> simp [operandA, controlA, h2, h, hy]
  have hB : operandB s (encode i) = 0 := by rcases hty with h | h <;> simp [operandB, controlB, h, h19]
  have hZ : aluWord s (encode i) = aluApply op (s.x rs) b := by
    rcases hb with ⟨h, rfl⟩ | ⟨h, rfl⟩ <;> simp [aluWord, hA, controlE, controlJ, rbMux, aluOut, h2, h, hop]
  have hY (pc n : Word) : writeBack s (encode i) pc n = aluApply op (s.x rs) b := by
    simp [writeBack, controlG, ryMux, settled, hZ, h1, h20, hty]
  have hT : stepTarget s (encode i) = s.nextPc := by rcases hty with h | h <;> simp [stepTarget, controlP, h]
  have hC : controlC i.id i.type (encode i) = rd := by simp [controlC, h1, hty, hx]
  rw [transfers_of_noAccess s h19 h20, hT, hC, hY, hY, settled, hA, hB, hZ, immediateAlu]

/-- Type 4 (R150). -/
theorem transfers_compareAndBranch (hty : i.type = 4) (hop : aluOfId i.id = some op) (hx : fieldX (encode i) = rd)
    (hy : fieldY (encode i) = rs) (himm : fieldImm6 (encode i) = imm) :
    transfers s (encode i) = compareAndBranch op i rd rs imm s := by
  obtain ⟨h1, h2, h19, h20⟩ := id_of_type (.inr (.inl hty))
  have hA : operandA s (encode i) = s.x rd := by simp [operandA, controlA, h2, hty, hx]
  have hB : operandB s (encode i) = s.x rs := by simp [operandB, controlB, h19, hty, hy]
  have hZ : aluWord s (encode i) = aluApply op (s.x rd) (s.x rs) := by
    simp [aluWord, hA, hB, controlE, controlJ, rbMux, aluOut, h2, hty, hop]
  have hY (pc n : Word) : writeBack s (encode i) pc n = 0 := by
    simp [writeBack, controlG, ryMux, h1, h20, hty]
  have hT : stepTarget s (encode i) =
      if aluApply op (s.x rd) (s.x rs) = 1 then s.nextPc + signedImm imm else s.nextPc := by
    simp [stepTarget, controlP, controlH, pcMux, afterPeriods, settled, hZ, h1, h2, hty, himm]
  have hC : controlC i.id i.type (encode i) = .r0 := by simp [controlC, h1, h20, hty]
  rw [transfers_of_noAccess s h19 h20, hT, hC, hY, hY, settled, hA, hB, hZ, compareAndBranch]

/-- Type 3 (R140): the base register's word and the offset pass through the ALU to RZ. -/
theorem type_three_operands (hty : i.type = 3) (hy : fieldY (encode i) = rs) (himm : fieldImm6 (encode i) = imm) :
    operandA s (encode i) = s.x rs ∧ aluWord s (encode i) = effectiveAddress s rs imm ∧
      stepTarget s (encode i) = s.nextPc := by
  have h2 : i.id ≠ 2 := by cases i <;> simp_all [Instr.type, Instr.id]
  have hA : operandA s (encode i) = s.x rs := by simp [operandA, controlA, h2, hty, hy]
  refine ⟨hA, ?_, by simp [stepTarget, controlP, hty]⟩
  simp [aluWord, hA, controlE, controlJ, rbMux, aluOut, aluApply, h2, hty, himm, effectiveAddress]

end Types

/-- `call` (R110): PC passes through RY to r1. -/
theorem transfers_call (imm : BitVec 11) (s : State) : transfers s (encode (.call imm)) = execCall imm s := by
  have himm : fieldImm11 (encode (.call imm)) = imm := fieldImm11_ltype ..
  have hA : operandA s (encode (.call imm)) = 0 := by simp [operandA, controlA, Instr.id, Instr.type]
  have hB : operandB s (encode (.call imm)) = 0 := by simp [operandB, controlB, Instr.id, Instr.type]
  have hZ : aluWord s (encode (.call imm)) = Config.aluIdle 0 0 := by
    simp [aluWord, hA, controlE, controlJ, rbMux, aluOut, Instr.id, Instr.type]
  have hY (pc n : Word) : writeBack s (encode (.call imm)) pc n = pc := by
    simp [writeBack, controlG, ryMux, Instr.id]
  have hT : stepTarget s (encode (.call imm)) = s.nextPc + callImm imm := by
    simp [stepTarget, controlP, controlH, pcMux, afterPeriods, settled, Instr.id, Instr.type, himm]
  rw [transfers_of_noAccess s (by simp [Instr.id]) (by simp [Instr.id]), hT, hY, hY, settled, hA, hB, hZ]
  rfl

/-- `ret` (R111): r1 passes through the ALU to PC. -/
theorem transfers_ret (s : State) : transfers s (encode .ret) = execRet s := by
  have hA : operandA s (encode .ret) = s.x .r1 := by simp [operandA, controlA, Instr.id]
  have hB : operandB s (encode .ret) = 0 := by simp [operandB, controlB, Instr.id, Instr.type]
  have hZ : aluWord s (encode .ret) = aluAdd (s.x .r1) 0 := by
    simp [aluWord, hA, controlE, controlJ, rbMux, aluOut, aluApply, Instr.id, Instr.type]
  have hY (pc n : Word) : writeBack s (encode .ret) pc n = 0 := by
    simp [writeBack, controlG, ryMux, Instr.id, Instr.type]
  have hT : stepTarget s (encode .ret) = aluAdd (s.x .r1) 0 := by
    simp [stepTarget, controlP, controlH, pcMux, afterPeriods, settled, hZ, Instr.id, Instr.type]
  rw [transfers_of_noAccess s (by decide) (by decide), hT, hY, hY, settled, hA, hB, hZ]
  rfl

/-- `stw` (R141): the word of RB passes through RM to memory, at the address in RZ. -/
theorem transfers_stw (rd rs : Reg) (imm : BitVec 6) (s : State) :
    transfers s (encode (.stw rd rs imm)) = execStw rd rs imm s := by
  have hx : fieldX (encode (.stw rd rs imm)) = rd := fieldX_ctype ..
  obtain ⟨hA, hZ, hT⟩ := type_three_operands s (i := .stw rd rs imm) rfl (fieldY_ctype ..) (fieldImm6_ctype ..)
  have hB : operandB s (encode (.stw rd rs imm)) = s.x rd := by simp [operandB, controlB, Instr.id, Instr.type, hx]
  have hR : dataRead s (encode (.stw rd rs imm)) = .ok (Config.busIdle (s.period + 4)) := by
    simp [dataRead, Instr.id]
  have hW : dataWritten s (encode (.stw rd rs imm)) = memWrite s (effectiveAddress s rs imm) (s.x rd) := by
    simp [dataWritten, hZ, hB, Instr.id]
  have hK : readsKeyboard s (encode (.stw rd rs imm)) = false := by simp [readsKeyboard, Instr.id]
  have hY (pc n : Word) : writeBack s (encode (.stw rd rs imm)) pc n = 0 := by
    simp [writeBack, controlG, ryMux, Instr.id, Instr.type]
  have hC : controlC (Instr.stw rd rs imm).id (Instr.stw rd rs imm).type (encode (.stw rd rs imm)) = .r0 := rfl
  simp only [transfers, execStw, hR, hW, hK, hT, hY, settled, hA, hB, hZ, decoderId_encode, decoderType_encode, hC]
  cases memWrite s (effectiveAddress s rs imm) (s.x rd) <;> rfl

/-- `ldw` (R142, R143): the word at the address in RZ, which the keyboard presents at 336, passes through RY. -/
theorem transfers_ldw (rd rs : Reg) (imm : BitVec 6) (s : State) :
    transfers s (encode (.ldw rd rs imm)) = execLdw rd rs imm s := by
  have hx : fieldX (encode (.ldw rd rs imm)) = rd := fieldX_ctype ..
  obtain ⟨hA, hZ, hT⟩ := type_three_operands s (i := .ldw rd rs imm) rfl (fieldY_ctype ..) (fieldImm6_ctype ..)
  have hB : operandB s (encode (.ldw rd rs imm)) = 0 := by simp [operandB, controlB, Instr.id, Instr.type]
  have hK : readsKeyboard s (encode (.ldw rd rs imm)) = decide (regionOf (effectiveAddress s rs imm) = .keyboard) := by
    simp [readsKeyboard, hZ, Instr.id]
  have hR : dataRead s (encode (.ldw rd rs imm)) = memRead s (keyboardRead s) (effectiveAddress s rs imm) := by
    simp only [dataRead, decoderId_encode, Instr.id, if_true, hZ, hK, memRead]
    cases regionOf (effectiveAddress s rs imm) <;> rfl
  have hW : dataWritten s (encode (.ldw rd rs imm)) = .ok s.mem := by simp [dataWritten, Instr.id]
  have hY (pc n : Word) : writeBack s (encode (.ldw rd rs imm)) pc n = n := by
    simp [writeBack, controlG, ryMux, Instr.id]
  have hC : controlC (Instr.ldw rd rs imm).id (Instr.ldw rd rs imm).type (encode (.ldw rd rs imm)) = rd := hx
  simp only [transfers, execLdw, hR, hW, hK, hT, hY, settled, hA, hB, hZ, decoderId_encode, decoderType_encode, hC]
  cases memRead s (keyboardRead s) (effectiveAddress s rs imm) <;> rfl

/-- What the generator's table makes the datapath do is what the instruction means (R248, R249). -/
theorem transfers_eq_exec {i : Instr} (s : State) (hi : hasTransfers i = true) : transfers s (encode i) = exec i s := by
  cases i
  case call => exact transfers_call ..
  case ret => exact transfers_ret ..
  case exit | reservedId17 | reservedId18 | reservedLtype => cases hi
  case stw => exact transfers_stw ..
  case ldw => exact transfers_ldw ..
  case beq | bne | bgt | blt =>
    exact transfers_compareAndBranch s rfl rfl (fieldX_ctype ..) (fieldY_ctype ..) (fieldImm6_ctype ..)
  case addi | muli | divi =>
    exact transfers_immediateAlu s (.inl ⟨rfl, congrArg signedImm (fieldImm6_ctype ..)⟩) rfl (fieldX_ctype ..)
      (fieldY_ctype ..)
  case andi | ori | lsi | rsi =>
    exact transfers_immediateAlu s (.inr ⟨rfl, congrArg logicalImm (fieldImm6_ctype ..)⟩) rfl (fieldX_ctype ..)
      (fieldY_ctype ..)
  all_goals exact transfers_registerAlu s rfl rfl (fieldX_rtype ..) (fieldY_rtype ..) (fieldZ_rtype ..)

/-! ### Any instruction at a boundary -/

/-- An instruction without register transfers other than `exit` is the model fault of a reserved word (R201). -/
theorem exec_reserved {i : Instr} (s : State) (hi : hasTransfers i = false) (hx : i ≠ .exit) :
    exec i s = .fault (.reservedEncoding (encode i)) := by
  cases i
  case exit => exact absurd rfl hx
  case reservedId17 | reservedId18 | reservedLtype => rfl
  all_goals cases hi

/-- Five periods that fetch a reserved word end in step 2 with its fault (R201). -/
theorem clockPeriods_reserved {s : State} {w : Word} (hb : AtBoundary s) (hf : fetch s = .ok w)
    (hi : hasTransfers (decode w) = false) (hx : decode w ≠ .exit) :
    clockPeriods 5 s = .fault (.reservedEncoding w) := by
  obtain ⟨l, rfl, h1⟩ := clockPeriod_step1 hb hf
  have h2 : clockPeriod (afterPeriods s 1 .s2 l) = .fault (.reservedEncoding l.ir) := clockPeriod_reserved rfl hi hx
  rw [clockPeriods_succ 4 h1, clockPeriods, h2]

/-- Five periods from a fetched word are the meaning of the instruction it decodes to. -/
theorem clockPeriods_eq_exec {s : State} {w : Word} (hb : AtBoundary s) (hf : fetch s = .ok w)
    (hx : decode w ≠ .exit) : clockPeriods 5 s = exec (decode w) s := by
  have hw : encode (decode w) = w := encode_decode w
  cases hi : hasTransfers (decode w) with
  | true =>
    calc clockPeriods 5 s
        = transfers s w := clockPeriods_five hb hf hi
      _ = transfers s (encode (decode w)) := by rw [hw]
      _ = exec (decode w) s := transfers_eq_exec s hi
  | false => rw [clockPeriods_reserved hb hf hi hx, exec_reserved s hi hx, hw]

/-- A fetch that answers a word answers the word at PC, which is an address of ROM (R64). -/
theorem fetch_inRom {s : State} {w : Word} (h : fetch s = .ok w) :
    s.pc.toNat < Config.romEnd ∧ s.word s.pc.toNat = w := by
  unfold fetch at h
  split at h
  case isTrue hpc => exact ⟨hpc, Except.ok.inj h⟩
  case isFalse => cases h

/-- Where instructions execute and one is about to begin, a step runs it (R12, R36). -/
theorem step_of_atBoundary {s : State} (he : Executing s) (hb : AtBoundary s) : step s = runInstruction s := by
  simp only [step, runStep, (runMode_executing_iff s).mpr he, runExecuting]
  exact if_pos hb

end Sys2Proof.Machine

open Sys2Proof Sys2Proof.Machine

/-- Settles O39: the five periods composed are the register transfers of the fetched word, and those are its meaning. -/
theorem fiveClockPeriodsAreOneInstruction : Obligations.FiveClockPeriodsAreOneInstruction := by
  intro s he hb hx
  rw [step_of_atBoundary he hb, runInstruction]
  cases hf : fetch s with
  | error f => rw [clockPeriods, clockPeriod_fetchFault hb hf]
  | ok w =>
    have hne : decode w ≠ .exit := by
      obtain ⟨hpc, rfl⟩ := fetch_inRom hf
      exact hx hpc
    exact clockPeriods_eq_exec hb hf hne

end

section
/-!
The state: what a step runs, what an instruction leaves of memory and does not look at, and what reset gives
(10_state.md R26, R34, R36, R42, R43).
-/

namespace Sys2Proof.Machine

/-! ### What a step runs (R36, R64) -/

/-- With PC inside ROM the fetch answers the word at PC (R64). -/
theorem fetch_of_inRom {s : State} (h : s.pc.toNat < Config.romEnd) : fetch s = .ok (s.word s.pc.toNat) :=
  if_pos h

/-- With PC inside ROM the instruction run is the one that the word at PC decodes to (R64, R94). -/
theorem runInstruction_of_inRom {s : State} (h : s.pc.toNat < Config.romEnd) :
    runInstruction s = exec (decode (s.word s.pc.toNat)) s := by
  simp only [runInstruction, fetch_of_inRom h]

/-- Where instructions execute, a step inside an instruction is one clock period (log 9). -/
theorem step_of_not_atBoundary {s : State} (he : Executing s) (hb : ¬AtBoundary s) : step s = clockPeriod s := by
  simp only [step, runStep, (runMode_executing_iff s).mpr he, runExecuting]
  exact if_neg hb

/-! ### Memory after an instruction that is no store (R26, R141) -/

/-- An instruction that completes leaves memory as it was. -/
theorem CompletesWith.memorySame {o : Host.Outcome State Fault Refusal} {s t : State} {d : Reg} {v target : Word}
    (hc : CompletesWith o s d v target) (h : o = .next t) : MemorySame s t := by
  obtain ⟨u, hu, -, -, -, hmem, -⟩ := hc
  cases hu.symm.trans h
  exact hmem

/-- A load leaves memory as it was, from whatever address it reads (R142). -/
theorem execLdw_memorySame {rd rs : Reg} {imm : BitVec 6} {s t : State} (h : execLdw rd rs imm s = .next t) :
    MemorySame s t := by
  unfold execLdw at h
  dsimp only at h
  split at h
  · cases h
  · cases h
    exact fun a => retire_word ..

/-- An `exit` that answers a next state leaves memory as it was (R112). -/
theorem execExit_memorySame {s t : State} (h : execExit s = .next t) : MemorySame s t := by
  obtain ⟨-, -, rfl⟩ | ⟨hne, -⟩ := exec_next (i := .exit) h
  · exact halt_word s
  · exact absurd rfl hne

/-! ### Replacing the latches and the step counter (R34) -/

/-- `s` with other contents in IR, RA, RB, RZ, RY, RM and S. -/
def relatch (s : State) (l : Latches) (n : StepNo) : State := { s with latches := l, stepNo := n }

@[simp] theorem relatch_x (s : State) (l : Latches) (n : StepNo) (r : Reg) : (relatch s l n).x r = s.x r := rfl
@[simp] theorem relatch_nextPc (s : State) (l : Latches) (n : StepNo) : (relatch s l n).nextPc = s.nextPc := rfl
@[simp] theorem relatch_startup (s : State) (l : Latches) (n : StepNo) : (relatch s l n).startup = s.startup := rfl
@[simp] theorem relatch_period (s : State) (l : Latches) (n : StepNo) : (relatch s l n).period = s.period := rfl
@[simp] theorem relatch_setMem (s : State) (l : Latches) (n : StepNo) (m : Memory) :
    { relatch s l n with mem := m } = relatch { s with mem := m } l n := rfl

@[simp] theorem effectiveAddress_relatch (s : State) (l : Latches) (n : StepNo) (base : Reg) (imm : BitVec 6) :
    effectiveAddress (relatch s l n) base imm = effectiveAddress s base imm := rfl
@[simp] theorem memRead_relatch (s : State) (l : Latches) (n : StepNo) (key a : Word) :
    memRead (relatch s l n) key a = memRead s key a := rfl
@[simp] theorem memWrite_relatch (s : State) (l : Latches) (n : StepNo) (a v : Word) :
    memWrite (relatch s l n) a v = memWrite s a v := rfl
@[simp] theorem keyboardRead_relatch (s : State) (l : Latches) (n : StepNo) :
    keyboardRead (relatch s l n) = keyboardRead s := rfl

/-- The end of an instruction overwrites all latches and S, and its other fields do not come from them. -/
@[simp] theorem retire_relatch (s : State) (l : Latches) (n : StepNo) (isRead : Bool) (l' : Latches) (target : Word)
    (d : Reg) (v : Word) : retire (relatch s l n) isRead l' target d v = retire s isRead l' target d v := rfl

/-- So does the end of a run. -/
@[simp] theorem halt_relatch (s : State) (l : Latches) (n : StepNo) : halt (relatch s l n) = halt s := rfl

/-- No instruction's meaning looks at the latches or at S. -/
theorem exec_relatch (i : Instr) (s : State) (l : Latches) (n : StepNo) : exec i (relatch s l n) = exec i s := by
  cases i
  case call imm => simp only [exec, execCall, relatch_nextPc, retire_relatch]
  case ret => simp only [exec, execRet, relatch_x, retire_relatch]
  case exit => by_cases hs : s.startup = true <;> simp [exec, execExit, hs]
  case stw rd rs imm =>
    simp only [exec, execStw, effectiveAddress_relatch, memWrite_relatch, relatch_x, relatch_nextPc, relatch_setMem,
      retire_relatch]
  case ldw rd rs imm =>
    -- the sides are left differing only in the instance by which `regionOf ea = .keyboard` is decided
    simp only [exec, execLdw, effectiveAddress_relatch, memRead_relatch, keyboardRead_relatch, relatch_x,
      relatch_nextPc, relatch_period, retire_relatch]
    rfl
  case reservedId17 | reservedId18 | reservedLtype => rfl
  -- the register, immediate and branch families: their shared operation ends in one `retire`
  all_goals exact congrArg Host.Outcome.next (retire_relatch ..)

/-! ### Reset (R42, R43, R240) -/

/-- The reset state holds the values that reset gives. -/
theorem resetRegisters_reset : resetRegisters State.reset = State.reset := rfl

/-- Every general register of the reset state reads 0 (R42, D11). -/
@[simp] theorem reset_x (r : Reg) : State.reset.x r = 0 :=
  resetRegisters_reset ▸ resetRegisters_x State.reset r

/-- Resetting what has been reset changes nothing. -/
@[simp] theorem resetRegisters_idem (s : State) : resetRegisters (resetRegisters s) = resetRegisters s := rfl

/-- While Reset is on, a step gives the reset values (R240). -/
theorem step_of_resetSwitch {s : State} (h : s.resetSwitch = true) : step s = .next (resetRegisters s) := by
  have hmode : s.runMode = .inReset := if_pos h
  simp only [step, runStep, hmode]

/-- A reset state with Reset on is held as it is (R240). -/
theorem step_resetRegisters {s : State} (h : s.resetSwitch = true) :
    step (resetRegisters s) = .next (resetRegisters s) := by
  rw [step_of_resetSwitch (s := resetRegisters s) h, resetRegisters_idem]

/-- A cleared keyboard's buffer is empty, and its state is not the one that holds a key (R212, R213). -/
theorem bufferHoldsKeyInState3_cleared : BufferHoldsKeyInState3 Keyboard.cleared :=
  ⟨fun h => absurd rfl h, fun h => nomatch h⟩

end Sys2Proof.Machine

open Sys2Proof Sys2Proof.Machine

/-- Settles O29, by the instruction: all but `exit` and `ldw` complete with memory in their frame, or are a fault. -/
theorem onlyStoresChangeMemory : Obligations.OnlyStoresChangeMemory := by
  intro i s t hi h
  cases i
  case stw rd rs imm => exact absurd rfl (hi rd rs imm)
  case ldw => exact execLdw_memorySame h
  case exit => exact execExit_memorySame h
  case reservedId17 | reservedId18 | reservedLtype => cases h
  case call | ret => exact (retire_completes ..).memorySame h
  case beq | bne | bgt | blt => exact (compareAndBranch_completes ..).memorySame h
  case addi | muli | divi | andi | ori | lsi | rsi => exact (immediateAlu_completes ..).memorySame h
  all_goals exact (registerAlu_completes ..).memorySame h

/-- Settles O6: the two branches of an executing step, the first with a fetch inside ROM. -/
theorem stepRunsTheDecodedInstruction : Obligations.StepRunsTheDecodedInstruction := by
  intro s he
  refine ⟨fun i hb hpc _ hi => ?_, step_of_not_atBoundary he⟩
  rw [step_of_atBoundary he hb, runInstruction_of_inRom hpc, hi]

/-- Settles O40. -/
theorem latchesDoNotMatter : Obligations.LatchesDoNotMatter :=
  exec_relatch

/-- Settles O41: the reset state's fields, read off. -/
theorem resetStateIsConfigurationOne : Obligations.ResetStateIsConfigurationOne :=
  ⟨reset_x, rfl, rfl, rfl, rfl, rfl, rfl, fun _ => rfl, rfl⟩

/-- Settles O42: the state that Reset leaves is `resetRegisters` of the state with the switch on. -/
theorem resetClearsRegistersAndKeepsMemory : Obligations.ResetClearsRegistersAndKeepsMemory := by
  intro s
  have hheld : step (resetRegisters { s with resetSwitch := true }) = .next (resetRegisters { s with resetSwitch := true }) :=
    step_resetRegisters rfl
  exact ⟨resetRegisters { s with resetSwitch := true }, rfl, resetRegisters_x _, rfl, rfl, rfl, rfl, rfl, rfl,
    resetRegisters_word _, rfl, hheld⟩

/-- Settles O48: memory and key script are empty, the keyboard is cleared, and Running, Exit and Reset are off. -/
theorem invHoldsAtReset : Obligations.InvHoldsAtReset where
  memory := reset_mem_wf
  buffer := bufferHoldsKeyInState3_cleared
  bufferLegal := rfl
  keysLegal := rfl
  exitStops := fun _ => rfl
  stepNamed := nofun
  resetHeld := fun _ => resetRegisters_reset

end

section
/-!
Memory: the one canonical list of its words, the good states that every step keeps, what a store leaves for the next load and
for the display, and what changes ROM (20_memory.md R50 to R65, R69; 60_exceptions.md R209, R213, R222).
-/

namespace Sys2Proof.Machine

/-! ### The canonical form (R50, R57) -/

/-- In canonical form the address of the first entry is not below the bound, and the other entries lie above it. -/
theorem wfFrom_cons {lo k : Nat} {v : Word} {m : Memory} (h : Memory.wfFrom lo ((k, v) :: m) = true) :
    lo ≤ k ∧ m.wfFrom (k + 1) = true := by
  simp only [Memory.wfFrom, Bool.and_eq_true, decide_eq_true_eq] at h
  obtain ⟨⟨hlo, -⟩, hm⟩ := h
  exact ⟨hlo, hm⟩

@[simp] theorem lookup_cons_self (k : Nat) (v : Word) (m : Memory) : Memory.lookup ((k, v) :: m) k = some v :=
  if_pos rfl

theorem lookup_cons_of_ne {k a : Nat} (v : Word) (m : Memory) (h : k ≠ a) :
    Memory.lookup ((k, v) :: m) a = m.lookup a :=
  if_neg h

/-- Nothing is listed below the bound of a canonical list. -/
theorem lookup_of_lt_wfFrom {lo a : Nat} {m : Memory} (h : m.wfFrom lo = true) (ha : a < lo) : m.lookup a = none := by
  induction m generalizing lo with
  | nil => rfl
  | cons e m ih =>
    obtain ⟨k, v⟩ := e
    obtain ⟨hlo, hm⟩ := wfFrom_cons h
    rw [lookup_cons_of_ne v m (by omega), ih hm (by omega)]

/-- An address that a canonical list holds a word for is not below its first entry's. -/
theorem head_le_of_lookup {lo k a : Nat} {v w : Word} {m : Memory} (h : Memory.wfFrom lo ((k, v) :: m) = true)
    (ha : Memory.lookup ((k, v) :: m) a = some w) : k ≤ a := by
  obtain ⟨-, hm⟩ := wfFrom_cons h
  by_contra hlt
  rw [lookup_cons_of_ne v m (by omega), lookup_of_lt_wfFrom hm (by omega)] at ha
  cases ha

/-- Canonical lists with the same words are the same list: their first entries are the lowest address and its word, and
what follows agrees because neither lists that address again. -/
theorem eq_of_lookup_eq {lo lo' : Nat} {m m' : Memory} (h : m.wfFrom lo = true) (h' : m'.wfFrom lo' = true)
    (heq : ∀ a, m.lookup a = m'.lookup a) : m = m' := by
  induction m generalizing lo lo' m' with
  | nil =>
    cases m' with
    | nil => rfl
    | cons e' m' => cases (heq e'.1).trans (lookup_cons_self e'.1 e'.2 m')
  | cons e m ih =>
    obtain ⟨k, v⟩ := e
    have hhead : Memory.lookup m' k = some v := (heq k).symm.trans (lookup_cons_self k v m)
    cases m' with
    | nil => cases hhead
    | cons e' m' =>
      obtain ⟨k', v'⟩ := e'
      have hhead' : Memory.lookup ((k, v) :: m) k' = some v' := (heq k').trans (lookup_cons_self k' v' m')
      obtain rfl : k = k' := Nat.le_antisymm (head_le_of_lookup h hhead') (head_le_of_lookup h' hhead)
      obtain rfl : v = v' := Option.some.inj ((lookup_cons_self k v m).symm.trans hhead')
      obtain ⟨-, hm⟩ := wfFrom_cons h
      obtain ⟨-, hm'⟩ := wfFrom_cons h'
      refine congrArg _ (ih hm hm' fun a => ?_)
      by_cases ha : k = a
      · subst ha
        rw [lookup_of_lt_wfFrom hm (Nat.lt_succ_self k), lookup_of_lt_wfFrom hm' (Nat.lt_succ_self k)]
      · rw [← lookup_cons_of_ne v m ha, ← lookup_cons_of_ne v m' ha, heq a]

/-! ### Good states (R213, R216, R240, R254) -/

/-- The step counter's successor names a step (R33). -/
theorem advance_ne_s0 (n : StepNo) : n.advance ≠ .s0 := by
  cases n <;> nofun

/-- A script of key data stays one when its first periods have gone by (R211). -/
theorem keys_drop_legal {s : State} (h : s.keys.all isKeyData = true) (n : Nat) :
    (s.keys.drop n).all isKeyData = true :=
  List.all_eq_true.mpr fun v hv => List.all_eq_true.mp h v (List.mem_of_mem_drop hv)

/-- Reset leads from a good state to a good state (R42, R240). -/
theorem Inv.resetRegisters {s : State} (h : Inv s) : Inv (resetRegisters s) where
  memory := h.memory
  buffer := bufferHoldsKeyInState3_cleared
  bufferLegal := rfl
  keysLegal := h.keysLegal
  exitStops := fun _ => rfl
  stepNamed := nofun
  resetHeld := fun _ => resetRegisters_idem s

/-- The start of a run leads from a good state with Exit = 0 to a good state (R242, R245). -/
theorem Inv.startRun {s : State} (h : Inv s) (hoff : s.resetSwitch = false) (hx : s.exitFlag = false) :
    Inv (startRun s) where
  memory := h.memory
  buffer := h.buffer
  bufferLegal := h.bufferLegal
  keysLegal := h.keysLegal
  exitStops := by simp [hx]
  stepNamed := nofun
  resetHeld := by simp [hoff]

/-- The end of a run keeps a state good (R112, R254). -/
theorem Inv.halt {s : State} (h : Inv s) (hoff : s.resetSwitch = false) : Inv (halt s) where
  memory := h.memory
  buffer := h.buffer
  bufferLegal := h.bufferLegal
  keysLegal := h.keysLegal
  exitStops := fun _ => rfl
  stepNamed := nofun
  resetHeld := by simp [hoff]

/-- The end of an instruction keeps a state good, whatever it wrote: the keyboard has gone through five transitions (R218). -/
theorem Inv.retire {s : State} {m : Memory} (h : Inv s) (hoff : s.resetSwitch = false) (hm : MemoryAfter s m)
    (isRead : Bool) (l : Latches) (target : Word) (d : Reg) (v : Word) :
    Inv (retire { s with mem := m } isRead l target d v) where
  memory := hm.wf h.memory
  buffer := kbdInstr_buffer isRead h.buffer
  bufferLegal := kbdInstr_bufferLegal isRead h.keysLegal h.bufferLegal
  keysLegal := keys_drop_legal h.keysLegal 5
  exitStops := h.exitStops
  stepNamed := nofun
  resetHeld := by simp [hoff]

/-- The end of a clock period keeps a state good, whatever its signals: the keyboard has gone through one transition
(R213, R247). -/
theorem Inv.latchAll {s : State} {m : Memory} (h : Inv s) (hoff : s.resetSwitch = false) (hm : MemoryAfter s m)
    (c : Control) (n : Word) (e : Bool) : Inv (latchAll c s n m (kbdTick s.kbd (s.keyIn 1) e).1) where
  memory := hm.wf h.memory
  buffer := kbdTick_buffer _ e h.buffer
  bufferLegal := kbdTick_bufferLegal e (keyIn_legal h.keysLegal 1) h.bufferLegal
  keysLegal := keys_drop_legal h.keysLegal 1
  exitStops := h.exitStops
  stepNamed := fun _ => advance_ne_s0 s.stepNo
  resetHeld := by simp [hoff]

/-- Every instruction keeps a state good while Reset is off. -/
theorem exec_keepsInv {i : Instr} {s t : State} (hs : Inv s) (hoff : s.resetSwitch = false)
    (h : exec i s = .next t) : Inv t := by
  rcases exec_next h with ⟨-, -, rfl⟩ | ⟨-, m, isRead, l, target, d, v, hm, rfl⟩
  · exact hs.halt hoff
  · exact hs.retire hoff hm isRead l target d v

/-- Every clock period keeps a state good while Reset is off. -/
theorem clockPeriod_keepsInv {s t : State} (hs : Inv s) (hoff : s.resetSwitch = false) (h : clockPeriod s = .next t) :
    Inv t := by
  obtain ⟨n, m, hm, rfl⟩ := clockPeriod_next h
  exact hs.latchAll hoff hm _ n _

/-! ### ROM and the switches (R35, R52, R69) -/

/-- Every word of ROM and the position of every switch is unchanged. -/
structure RomAndSwitchesSame (s t : State) : Prop where
  rom : ∀ a, a < 256 → t.word a = s.word a
  startup : t.startup = s.startup
  resetSwitch : t.resetSwitch = s.resetSwitch
  automatic : t.automatic = s.automatic

/-- With no switch moved it is enough that memory is as an instruction leaves it. -/
theorem MemoryAfter.romAndSwitchesSame {s t : State} (hm : MemoryAfter s t.mem) (hstart : t.startup = s.startup)
    (hreset : t.resetSwitch = s.resetSwitch) (hauto : t.automatic = s.automatic) : RomAndSwitchesSame s t :=
  ⟨fun _ ha => word_congr (hm.rom ha), hstart, hreset, hauto⟩

theorem exec_romAndSwitchesSame {i : Instr} {s t : State} (h : exec i s = .next t) : RomAndSwitchesSame s t := by
  rcases exec_next h with ⟨-, -, rfl⟩ | ⟨-, m, isRead, l, target, d, v, hm, rfl⟩
  · exact MemoryAfter.romAndSwitchesSame (.inl rfl) rfl rfl rfl
  · exact MemoryAfter.romAndSwitchesSame hm rfl rfl rfl

theorem clockPeriod_romAndSwitchesSame {s t : State} (h : clockPeriod s = .next t) : RomAndSwitchesSame s t := by
  obtain ⟨n, m, hm, rfl⟩ := clockPeriod_next h
  exact MemoryAfter.romAndSwitchesSame hm rfl rfl rfl

theorem step_romAndSwitchesSame {s t : State} (h : step s = .next t) : RomAndSwitchesSame s t := by
  rcases step_next h with ⟨-, rfl⟩ | ⟨-, -, w, -, hx⟩ | ⟨-, -, hc⟩ | ⟨-, -, -, rfl⟩ | ⟨-, -, -, -, rfl⟩
  case inl => exact MemoryAfter.romAndSwitchesSame (.inl rfl) rfl rfl rfl
  case inr.inl => exact exec_romAndSwitchesSame hx
  case inr.inr.inl => exact clockPeriod_romAndSwitchesSame hc
  case inr.inr.inr.inl => exact MemoryAfter.romAndSwitchesSame (.inl rfl) rfl rfl rfl
  case inr.inr.inr.inr => exact MemoryAfter.romAndSwitchesSame (.inl rfl) rfl rfl rfl

/-! ### A store and a load (R62, R63, R141, R142) -/

/-- `s` with a word stored in memory. -/
def storeWord (s : State) (a : Nat) (v : Word) : State := { s with mem := s.mem.store a v }

@[simp] theorem storeWord_word_self (s : State) (a : Nat) (v : Word) : (storeWord s a v).word a = v := by
  simp [State.word, storeWord]

theorem storeWord_word_of_ne (s : State) {a b : Nat} (v : Word) (h : b ≠ a) :
    (storeWord s a v).word b = s.word b :=
  word_congr (lookup_store_of_ne s.mem v h)

/-- A `stw` to RAM or display stores its word and ends (R53, R54, R141). -/
theorem exec_stw_stored {rd rs : Reg} {imm : BitVec 6} {s : State} (hlo : 256 ≤ (effectiveAddress s rs imm).toNat)
    (hhi : (effectiveAddress s rs imm).toNat < 336) :
    ∃ l, exec (.stw rd rs imm) s =
      .next (retire (storeWord s (effectiveAddress s rs imm).toNat (s.x rd)) false l s.nextPc .r0 0) := by
  have hw : memWrite s (effectiveAddress s rs imm) (s.x rd) =
      .ok (s.mem.store (effectiveAddress s rs imm).toNat (s.x rd)) := by
    rcases memWrite_cases s (effectiveAddress s rs imm) (s.x rd) with ⟨h, -⟩ | ⟨-, -, hw⟩ | ⟨h, -⟩
    · omega
    · exact hw
    · omega
  simp only [exec, execStw, hw]
  exact ⟨_, rfl⟩

/-- A `ldw` from ROM, RAM or display completes with the word there (R62, R142). -/
theorem exec_ldw_completes {rd rs : Reg} {imm : BitVec 6} {s : State}
    (hhi : (effectiveAddress s rs imm).toNat < 336) :
    CompletesWith (exec (.ldw rd rs imm) s) s rd (s.word (effectiveAddress s rs imm).toNat) s.nextPc := by
  have hr : memRead s (keyboardRead s) (effectiveAddress s rs imm) = .ok (s.word (effectiveAddress s rs imm).toNat) := by
    rcases memRead_cases s (keyboardRead s) (effectiveAddress s rs imm) with ⟨-, hr⟩ | ⟨h, -⟩ | ⟨h, -⟩
    · exact hr
    · omega
    · omega
  have hk : regionOf (effectiveAddress s rs imm) ≠ .keyboard := by
    rcases regionOf_spec (effectiveAddress s rs imm) with ⟨-, e⟩ | ⟨-, -, e⟩ | ⟨-, -, e⟩ | ⟨h, -⟩ | ⟨h, -⟩
    · simp [e]
    · simp [e]
    · simp [e]
    · omega
    · omega
  simp only [exec, execLdw, hr, decide_eq_false hk]
  exact retire_completes ..

/-! ### The fetch (R64) and the loading of ROM (R52, R222) -/

/-- With PC outside ROM the fetch is the model fault (R64, D3). -/
theorem fetch_of_outsideRom {s : State} (h : Config.romEnd ≤ s.pc.toNat) : fetch s = .error (.fetchOutsideROM s.pc) :=
  if_neg (Nat.not_lt.mpr h)

/-- `s` with the words of an image placed in ROM, which is cut at its end (log 10). -/
def withRomImage (s : State) (image : List Word) : State :=
  { s with mem := s.mem.storeAll 0 (image.take Config.romEnd) }

theorem operate_loadRom_of_stopped (image : List Word) {s : State} (h : s.running = false) :
    operate (.loadRom image) s = .next (withRomImage s image) := by
  simp [operate, withRomImage, h]

theorem operate_loadRom_of_running (image : List Word) {s : State} (h : s.running = true) :
    operate (.loadRom image) s = .refused .romEditedDuringRun := by
  simp [operate, h]

/-- The part of an image that is placed ends with the image or with ROM. -/
theorem placedImage_length (image : List Word) : (image.take Config.romEnd).length = min 256 image.length :=
  List.length_take

theorem withRomImage_word_of_in (s : State) {image : List Word} {a : Nat} (h : a < image.length) (ha : a < 256) :
    (withRomImage s image).word a = image[a] := by
  have hlen : a < (image.take Config.romEnd).length := by rw [placedImage_length]; omega
  have hl : (withRomImage s image).mem.lookup a = some image[a] := by
    simpa [withRomImage] using lookup_storeAll_of_in (a := 0) s.mem (image.take Config.romEnd) hlen
  simp only [State.word, hl]

theorem withRomImage_word_of_out (s : State) {image : List Word} {a : Nat} (h : 256 ≤ a ∨ image.length ≤ a) :
    (withRomImage s image).word a = s.word a :=
  word_congr (lookup_storeAll_of_out s.mem _ (.inr (by rw [placedImage_length]; omega)))

end Sys2Proof.Machine

open Sys2Proof Sys2Proof.Machine

/-- Settles O49, by what a step can do: reset, an instruction, a clock period, nothing, or the start of a run. -/
theorem stepKeepsInv : Obligations.StepKeepsInv := by
  intro s t hs h
  rcases step_next h with ⟨-, rfl⟩ | ⟨⟨hoff, -, -⟩, -, w, -, hx⟩ | ⟨⟨hoff, -, -⟩, -, hc⟩ | ⟨-, -, -, rfl⟩ |
    ⟨hoff, -, -, hexit, rfl⟩
  case inl => exact hs.resetRegisters
  case inr.inl => exact exec_keepsInv hs hoff hx
  case inr.inr.inl => exact clockPeriod_keepsInv hs hoff hc
  case inr.inr.inr.inl => exact hs
  case inr.inr.inr.inr => exact hs.startRun hoff hexit

/-- Settles O28: the load reads the state that the store ended in, in which the address holds the stored word. -/
theorem loadReturnsTheWordStored : Obligations.LoadReturnsTheWordStored := by
  intro rd rs rd' rs' imm imm' s t hlo hhi hst hea
  obtain ⟨l, hstored⟩ := exec_stw_stored (rd := rd) hlo hhi
  obtain rfl := Host.Outcome.next.inj (hstored.symm.trans hst)
  have hload := exec_ldw_completes (rd := rd') (hea ▸ hhi)
  rw [hea, retire_word, storeWord_word_self] at hload
  have hpc : s.nextPc + 1 = s.pc + 2 := BitVec.add_assoc ..
  exact hpc ▸ hload

/-- Settles O30. -/
theorem stepKeepsRomAndSwitches : Obligations.StepKeepsRomAndSwitches := by
  intro s t h
  obtain ⟨hrom, hstart, hreset, hauto⟩ := step_romAndSwitchesSame h
  exact ⟨hrom, hstart, hreset, hauto⟩

/-- Settles O31. -/
theorem memoryFormIsCanonical : Obligations.MemoryFormIsCanonical :=
  fun _ _ h h' => eq_of_lookup_eq h h'

/-- Settles O32: display position `j` is the word at 320 + `j`, and only the word at 320 + `i` changes. -/
theorem displayShowsTheStoredWord : Obligations.DisplayShowsTheStoredWord := by
  intro rd rs imm s i hea
  have hlo : 256 ≤ (effectiveAddress s rs imm).toNat := by omega
  have hhi : (effectiveAddress s rs imm).toNat < 336 := by omega
  obtain ⟨l, hstored⟩ := exec_stw_stored (rd := rd) hlo hhi
  rw [hea] at hstored
  refine ⟨_, hstored, congrArg Config.glyph (storeWord_word_self s (320 + i.val) (s.x rd)), fun j hj => ?_⟩
  have hne : 320 + j.val ≠ 320 + i.val := fun h => hj (Fin.ext (Nat.add_left_cancel h))
  exact congrArg Config.glyph (storeWord_word_of_ne s (s.x rd) hne)

/-- Settles O60: the image's words stand at their addresses, and `withRomImage` replaces memory only. -/
theorem loadRomPlacesTheImage : Obligations.LoadRomPlacesTheImage := by
  intro image s
  refine ⟨fun hstop => ?_, operate_loadRom_of_running image⟩
  exact ⟨withRomImage s image, operate_loadRom_of_stopped image hstop, fun _ h ha => withRomImage_word_of_in s h ha,
    fun _ h => withRomImage_word_of_out s h, fun _ => rfl, rfl⟩

/-- Settles O7. -/
theorem fetchOutsideRomFaults : Obligations.FetchOutsideRomFaults := by
  intro s he hb hpc
  simp only [step_of_atBoundary he hb, runInstruction, fetch_of_outsideRom hpc]

end

section
/-!
The encoding: decoding and encoding are inverse, the opcode table under first match is the decoder, the ID and type of a word,
and the reserved words (30_encoding.md R82 to R96; 60_exceptions.md R201).
-/

namespace Sys2Proof

/-! ### Decoding an encoded instruction (R94, R95) -/

/-- Only the two L-type terms whose words are those of `ret` and `exit` are not well-formed (R91). -/
theorem Instr.wf_iff (i : Instr) : i.wf = true ↔ i ≠ .reservedLtype 0 ∧ i ≠ .reservedLtype 1024 := by
  cases i <;> simp [Instr.wf]

/-- An L-type word with opcode field 10000 that is neither `ret` nor `exit` is read as reserved (R91). -/
theorem decode_encode_reservedLtype {imm : BitVec 11} (h0 : imm ≠ 0) (h1024 : imm ≠ 1024) :
    decode (encode (.reservedLtype imm)) = .reservedLtype imm := by
  have himm : fieldImm11 (encodeLType 0b10000#5 imm) = imm := fieldImm11_ltype ..
  have hret : encodeLType 0b10000#5 imm ≠ 0x0010#16 := fun e => h0 (by rw [← himm, e]; rfl)
  have hexit : encodeLType 0b10000#5 imm ≠ 0x8010#16 := fun e => h1024 (by rw [← himm, e]; rfl)
  simp [encode, decode, decodeLType, hret, hexit]

/-- Decoding the word of a well-formed instruction gives it back (R94, R95). -/
theorem decode_encode {i : Instr} (h : i.wf = true) : decode (encode i) = i := by
  obtain ⟨h0, h1024⟩ := i.wf_iff.mp h
  cases i
  case reservedLtype imm =>
    exact decode_encode_reservedLtype (fun e => h0 (congrArg _ e)) (fun e => h1024 (congrArg _ e))
  case ret | exit => rfl
  case call => simp [encode, decode, decodeLType]
  case stw | ldw | beq | bne | bgt | blt | addi | muli | divi | andi | ori | lsi | rsi => simp [encode, decode]
  case add | sub | mul | div | pow | mod | and | or => simp [encode, decode, decodeRType1]
  case xor | xnor | ls | rs | lr | rr | reservedId17 | reservedId18 => simp [encode, decode, decodeRType2]

/-- Every word decodes to a well-formed instruction: the words of `ret` and `exit` are not read as reserved (R91, R96). -/
theorem wf_decode (w : Word) : (decode w).wf = true := by
  have hw : encode (decode w) = w := encode_decode w
  refine (decode w).wf_iff.mpr ⟨fun h => ?_, fun h => ?_⟩
  · have hret : w = encode .ret := by rw [← hw, h]; rfl
    rw [hret, decode_encode rfl] at h
    cases h
  · have hexit : w = encode .exit := by rw [← hw, h]; rfl
    rw [hexit, decode_encode rfl] at h
    cases h

/-! ### The opcode fields as numbers (R82, R84, R85) -/

theorem fieldPrimary_toNat (w : Word) : (fieldPrimary w).toNat = w.toNat % 16 := by
  simp [fieldPrimary]

theorem fieldSub_toNat (w : Word) : (fieldSub w).toNat = w.toNat / 16 % 8 := by
  simp [fieldSub, Nat.shiftRight_eq_div_pow]

theorem bit4_toNat (w : Word) : (w.extractLsb' 4 1).toNat = w.toNat / 16 % 2 := by
  simp [Nat.shiftRight_eq_div_pow]

/-! ### ID and type (R87) -/

theorem decoderId_of_primary_zero {w : Word} (h : w.toNat % 16 = 0) : decoderId w = 1 + w.toNat / 16 % 2 := by
  simp only [decoderId, fieldPrimary_toNat, h, bit4_toNat]

theorem decoderId_of_primary_one {w : Word} (h : w.toNat % 16 = 1) : decoderId w = 3 + w.toNat / 16 % 8 := by
  simp only [decoderId, fieldPrimary_toNat, h, fieldSub_toNat]

theorem decoderId_of_primary_two {w : Word} (h : w.toNat % 16 = 2) : decoderId w = 11 + w.toNat / 16 % 8 := by
  simp only [decoderId, fieldPrimary_toNat, h, fieldSub_toNat]

theorem decoderId_of_three_le_primary {w : Word} (h : 3 ≤ w.toNat % 16) : decoderId w = 16 + w.toNat % 16 := by
  simp only [decoderId, fieldPrimary_toNat]
  split <;> omega

/-- The decoder output `I` is the ID column of the row the word decodes to. -/
theorem decoderId_eq_id (w : Word) : decoderId w = (decode w).id := by
  rw [← decoderId_encode, encode_decode]

/-- The decoder output `T` is the Type column of the row the word decodes to. -/
theorem decoderType_eq_type (w : Word) : decoderType w = (decode w).type := by
  rw [← decoderType_encode, encode_decode]

/-! ### The reserved words (R90, R91) -/

theorem decode_of_low7_id17 {w : Word} (h : w.toNat % 128 = 98) :
    decode w = .reservedId17 (fieldX w) (fieldY w) (fieldZ w) := by
  have hp : (fieldPrimary w).toNat = 2 := by rw [fieldPrimary_toNat]; omega
  have hu : (fieldSub w).toNat = 6 := by rw [fieldSub_toNat]; omega
  simp only [decode, hp, decodeRType2, hu]

theorem decode_of_low7_id18 {w : Word} (h : w.toNat % 128 = 114) :
    decode w = .reservedId18 (fieldX w) (fieldY w) (fieldZ w) := by
  have hp : (fieldPrimary w).toNat = 2 := by rw [fieldPrimary_toNat]; omega
  have hu : (fieldSub w).toNat = 7 := by rw [fieldSub_toNat]; omega
  simp only [decode, hp, decodeRType2, hu]

theorem decode_of_low5_ltype {w : Word} (h : w.toNat % 32 = 16) (hret : w ≠ 0x0010#16) (hexit : w ≠ 0x8010#16) :
    decode w = .reservedLtype (fieldImm11 w) := by
  have hp : (fieldPrimary w).toNat = 0 := by rw [fieldPrimary_toNat]; omega
  have h4 : w.extractLsb' 4 1 ≠ 0#1 := fun e => by
    have := bit4_toNat w
    rw [e, BitVec.toNat_zero] at this
    omega
  simp only [decode, hp, decodeLType, if_neg h4, if_neg hret, if_neg hexit]

/-! ### The opcode table under first match (R96) -/

/-- Every instruction's word matches the row of its own mnemonic. -/
theorem Laws.WordMatchesItsRow.every_instr (i : Instr) : Statement i := by
  cases i
  exacts [call _, ret, exit, add _ _ _, sub _ _ _, mul _ _ _, div _ _ _, pow _ _ _, mod _ _ _, and _ _ _, or _ _ _,
    xor _ _ _, xnor _ _ _, ls _ _ _, rs _ _ _, lr _ _ _, rr _ _ _, stw _ _ _, ldw _ _ _, beq _ _ _, bne _ _ _,
    bgt _ _ _, blt _ _ _, addi _ _ _, muli _ _ _, divi _ _ _, andi _ _ _, ori _ _ _, lsi _ _ _, rsi _ _ _,
    reservedId17 _ _ _, reservedId18 _ _ _, reservedLtype _]

/-- Two rows that one word matches agree on the bits that both masks look at. -/
theorem bits_agree_of_match {w : Word} {r r' : OpcodeRow} (h : w &&& r.mask = r.bits) (h' : w &&& r'.mask = r'.bits) :
    r.bits &&& r'.mask = r'.bits &&& r.mask := by
  rw [← h, ← h', BitVec.and_assoc, BitVec.and_assoc, BitVec.and_comm r.mask]

/-- Rows of the table agree on the bits that both masks look at only as `ret` or `exit` before `reserved.ltype`. -/
theorem opcodeRows_disjoint : opcodeRows.Pairwise fun r r' =>
    r.bits &&& r'.mask = r'.bits &&& r.mask →
      r.mask = 0xFFFF ∧ (r.bits = encode .ret ∨ r.bits = encode .exit) ∧ r'.mnemonic = "reserved.ltype" := by
  decide

/-- Where a word matches two rows, the earlier is all of the word of `ret` or `exit` and the later is `reserved.ltype`. -/
theorem opcodeRows_overlap (w : Word) : opcodeRows.Pairwise fun r r' =>
    w &&& r.mask = r.bits → w &&& r'.mask = r'.bits →
      (w = encode .ret ∨ w = encode .exit) ∧ r'.mnemonic = "reserved.ltype" :=
  opcodeRows_disjoint.imp fun {r r'} hdisjoint h h' => by
    obtain ⟨hmask, hbits, hlast⟩ := hdisjoint (bits_agree_of_match h h')
    have hw : w = r.bits := by rw [← h, hmask]; exact (BitVec.and_allOnes (x := w)).symm
    exact ⟨hw ▸ hbits, hlast⟩

/-- A row that a word matches and that carries the mnemonic of the decoded instruction is the first it matches. -/
theorem firstRow_of_match {w : Word} {r : OpcodeRow} (hr : r ∈ opcodeRows) (hname : r.mnemonic = (decode w).mnemonic)
    (h : w &&& r.mask = r.bits) : firstRow w = some r := by
  obtain ⟨before, after, hsplit⟩ := List.append_of_mem hr
  have hoverlap := opcodeRows_overlap w
  rw [hsplit] at hoverlap
  have hbefore : ∀ a ∈ before, ¬w &&& a.mask = a.bits := fun a ha hmatch => by
    obtain ⟨hw, hlast⟩ := (List.pairwise_append.mp hoverlap).2.2 a ha r List.mem_cons_self hmatch h
    rw [hname] at hlast
    rcases hw with rfl | rfl
    all_goals
      rw [decode_encode rfl] at hlast
      exact absurd hlast (by decide)
  refine List.find?_eq_some_iff_append.mpr ⟨decide_eq_true h, before, after, hsplit, fun a ha => ?_⟩
  rw [decide_eq_false (hbefore a ha)]
  rfl

/-- The first row a word matches carries the mnemonic of the instruction it decodes to. -/
theorem firstRow_eq_decode (w : Word) : ∃ r, firstRow w = some r ∧ r.mnemonic = (decode w).mnemonic := by
  obtain ⟨r, hr, hname, hmatch⟩ := Laws.WordMatchesItsRow.every_instr (decode w) (wf_decode w)
  rw [encode_decode] at hmatch
  exact ⟨r, firstRow_of_match hr hname hmatch, hname⟩

/-- Two different rows that one word matches include `reserved.ltype`. -/
theorem overlap_isReservedLtype {w : Word} {r r' : OpcodeRow} (hr : r ∈ opcodeRows) (hr' : r' ∈ opcodeRows)
    (h : w &&& r.mask = r.bits) (h' : w &&& r'.mask = r'.bits) :
    r = r' ∨ r.mnemonic = "reserved.ltype" ∨ r'.mnemonic = "reserved.ltype" := by
  have hoverlap := List.pairwise_iff_getElem.mp (opcodeRows_overlap w)
  obtain ⟨i, hi, rfl⟩ := List.getElem_of_mem hr
  obtain ⟨j, hj, rfl⟩ := List.getElem_of_mem hr'
  rcases Nat.lt_trichotomy i j with hlt | rfl | hgt
  · exact .inr (.inr (hoverlap i j hi hj hlt h h').2)
  · exact .inl rfl
  · exact .inr (.inl (hoverlap j i hj hi hgt h' h).2)

end Sys2Proof

namespace Sys2Proof.Machine

/-- An instruction without register transfers other than `exit` that is fetched in ROM stops the run with its word (R201). -/
theorem step_reserved {s : State} {w : Word} {i : Instr} (he : Executing s) (hb : AtBoundary s)
    (hpc : s.pc.toNat < Config.romEnd) (hw : s.word s.pc.toNat = w) (hdec : decode w = i) (hi : hasTransfers i = false)
    (hx : i ≠ .exit) :
    step s = .fault (.reservedEncoding w) := by
  have hword : encode i = w := by rw [← hdec, encode_decode]
  rw [step_of_atBoundary he hb, runInstruction_of_inRom hpc, hw, hdec, exec_reserved s hi hx, hword]

end Sys2Proof.Machine

open Sys2Proof Sys2Proof.Machine

/-- Settles O1. -/
theorem encodeThenDecodeIsIdentity : Obligations.EncodeThenDecodeIsIdentity :=
  fun _ => decode_encode

/-- Settles O2. -/
theorem decodeThenEncodeIsIdentity : Obligations.DecodeThenEncodeIsIdentity :=
  fun w => ⟨encode_decode w, wf_decode w⟩

/-- Settles O3: the rows are told apart by the bits that two masks share, all but `reserved.ltype` from `ret` and `exit`. -/
theorem decodeIsTheFirstMatchingRow : Obligations.DecodeIsTheFirstMatchingRow :=
  ⟨firstRow_eq_decode, fun _ _ hr _ hr' => overlap_isReservedLtype hr hr'⟩

/-- Settles O4. -/
theorem idAndTypeFollowTheTable : Obligations.IdAndTypeFollowTheTable :=
  fun w => ⟨decoderId_of_primary_zero, decoderId_of_primary_one, decoderId_of_primary_two, decoderId_of_three_le_primary,
    decoderId_eq_id w, decoderType_eq_type w⟩

/-- Settles O9: each of the three patterns decodes to its reserved row, and `step_reserved` stops there. -/
theorem reservedWordsStopTheRun : Obligations.ReservedWordsStopTheRun := by
  intro s w he hb hpc hw hreserved
  rcases hreserved with h17 | h18 | ⟨hL, hret, hexit⟩
  · exact step_reserved he hb hpc hw (decode_of_low7_id17 h17) rfl nofun
  · exact step_reserved he hb hpc hw (decode_of_low7_id18 h18) rfl nofun
  · exact step_reserved he hb hpc hw (decode_of_low5_ltype hL hret hexit) rfl nofun

/-- Settles O5: ten closed words, decoded by evaluation. -/
theorem writtenWordsDecode : Obligations.WrittenWordsDecode := by
  unfold Obligations.WrittenWordsDecode
  decide

/-- Settles O8. -/
theorem reservedRowsFault : Obligations.ReservedRowsFault :=
  fun s => ⟨fun _ _ _ => exec_reserved s rfl nofun, fun _ _ _ => exec_reserved s rfl nofun,
    fun _ => exec_reserved s rfl nofun⟩

end

section
/-!
Program control: what `call`, `ret` and `exit` do, and where each leaves PC (40_program_control.md R110 to R112).
-/

namespace Sys2Proof.Machine

/-- The ALU's adder passes its A operand on when its B input is 0 (R111, R122). -/
theorem aluAdd_zero (a : Word) : aluAdd a 0 = a := by
  rw [aluAdd_eq, add_zero]

/-- A `call` completes with the return address in r1 (R110). -/
theorem exec_call_completes (imm : BitVec 11) (s : State) :
    CompletesWith (exec (.call imm) s) s .r1 s.nextPc (s.nextPc + callImm imm) :=
  retire_completes ..

/-- A `ret` completes at what the adder delivers for x[1] and 0, and its step 5 writes r0 (R111, C10). -/
theorem exec_ret_completes (s : State) : CompletesWith (exec .ret s) s .r0 0 (aluAdd (s.x .r1) 0) :=
  retire_completes ..

/-- With Startup off an `exit` halts (R112, R244). -/
theorem exec_exit_of_startupOff {s : State} (h : s.startup = false) : exec .exit s = .next (halt s) := by
  simp [exec, execExit, h]

/-- A halted run has ended (R254). -/
theorem halt_ended (s : State) : Ended (halt s) :=
  ⟨halt_exitFlag s, halt_running s⟩

/-- The two values that PC can have after an `exit` (D7, U17; log 8). -/
theorem halt_pc_cases (s : State) : (halt s).pc = s.nextPc ∨ (halt s).pc = s.x .r1 := by
  rw [halt_pc]
  split
  case isTrue => exact .inr rfl
  case isFalse => exact .inl rfl

end Sys2Proof.Machine

open Sys2Proof Sys2Proof.Machine

/-- Settles O10: the target, next PC plus the extended immediate, is the one of R110 modulo 65536. -/
theorem callLinksAndJumps : Obligations.CallLinksAndJumps := by
  intro imm s
  have hcall := exec_call_completes imm s
  rwa [callTarget_eq] at hcall

/-- Settles O11: the adder with B input 0 passes x[1] to PC. -/
theorem retJumpsToTheLinkRegister : Obligations.RetJumpsToTheLinkRegister := by
  intro s
  have hret := exec_ret_completes s
  rwa [aluAdd_zero] at hret

/-- Settles O12: the state after `exit` is `halt`, whose fields are read off. -/
theorem exitEndsTheRun : Obligations.ExitEndsTheRun := by
  intro s hoff
  exact ⟨halt s, exec_exit_of_startupOff hoff, halt_ended s, halt_x s, halt_word s, halt_kbd s, halt_keys s,
    halt_startup s, halt_resetSwitch s, halt_automatic s, halt_pc_cases s⟩

end

section
/-!
The register ALU instructions: each completes with the word its ALU operation delivers, and that word in library terms
(41_alu_register.md R120 to R137).
-/

namespace Sys2Proof.Machine

/-- An instruction that is the register ALU instruction of `op` completes with the word `op` delivers, at the next word
(R120). -/
theorem exec_completes_of_registerAlu (op : AluOp) {i : Instr} {rd rs rt : Reg} {s : State} {v : Word}
    (hexec : exec i s = registerAlu op i rd rs rt s) (hv : aluApply op (s.x rs) (s.x rt) = v) :
    CompletesWith (exec i s) s rd v (s.pc + 1) := by
  rw [hexec, ← hv]
  exact registerAlu_completes ..

/-- The range of 32 signed bits (R126). -/
theorem fits32_iff (z : Int) : fits32 z = true ↔ -2 ^ 31 ≤ z ∧ z ≤ 2 ^ 31 - 1 := by
  simp [fits32]

/-- With an exponent of 0 or above `ALU.pow` asks only whether the power fits 32 signed bits (R126, R137). -/
theorem aluPow_of_natExponent (a : Word) {b : Word} {n : Nat} (hn : b.toInt = n) :
    aluPow a b = if fits32 (a.toInt ^ n) then BitVec.ofInt 16 (a.toInt ^ n) else Config.powOvf a b := by
  have hnonneg : ¬b.toInt < 0 := by omega
  rw [aluPow_eq, if_neg hnonneg, hn, Int.toNat_natCast]

/-- A power that fits 32 signed bits is delivered modulo 65536 (R126). -/
theorem aluPow_of_fits {a b : Word} {n : Nat} (hn : b.toInt = n)
    (hfits : -2 ^ 31 ≤ a.toInt ^ n ∧ a.toInt ^ n ≤ 2 ^ 31 - 1) : aluPow a b = BitVec.ofInt 16 (a.toInt ^ n) := by
  rw [aluPow_of_natExponent a hn, if_pos ((fits32_iff _).mpr hfits)]

/-- A power beyond 32 signed bits leaves the open word (R137; log 6). -/
theorem aluPow_of_overflow {a b : Word} {n : Nat} (hn : b.toInt = n)
    (hout : a.toInt ^ n < -2 ^ 31 ∨ 2 ^ 31 - 1 < a.toInt ^ n) : aluPow a b = Config.powOvf a b := by
  have hnot : ¬fits32 (a.toInt ^ n) = true := by
    rw [fits32_iff]
    omega
  rw [aluPow_of_natExponent a hn, if_neg hnot]

/-- A negative exponent leaves the open word (R137; log 6). -/
theorem aluPow_of_negative (a : Word) {b : Word} (h : b.toInt < 0) : aluPow a b = Config.powNeg a b := by
  rw [aluPow_eq, if_pos h]

end Sys2Proof.Machine

open Sys2Proof Sys2Proof.Machine

/-- Settles O13. -/
theorem addSubMulWrap : Obligations.AddSubMulWrap := by
  intro rd rs rt s
  refine ⟨?add, ?sub, ?mul⟩
  case add => exact exec_completes_of_registerAlu .add rfl (aluAdd_eq ..)
  case sub => exact exec_completes_of_registerAlu .sub rfl (aluSub_eq ..)
  case mul => exact exec_completes_of_registerAlu .mul rfl (aluMul_eq ..)

/-- Settles O14: the divisor word decides the branch of `aluDiv_eq` and `aluMod_eq`. -/
theorem divModTruncate : Obligations.DivModTruncate := by
  intro rd rs rt s
  refine ⟨fun hne => ⟨?div, ?mod⟩, fun hzero => ⟨?divZero, ?modZero⟩⟩
  case div => exact exec_completes_of_registerAlu .div rfl ((aluDiv_eq ..).trans (if_neg hne))
  case mod => exact exec_completes_of_registerAlu .mod rfl ((aluMod_eq ..).trans (if_neg hne))
  case divZero => exact exec_completes_of_registerAlu .div rfl ((aluDiv_eq ..).trans (if_pos hzero))
  case modZero => exact exec_completes_of_registerAlu .mod rfl ((aluMod_eq ..).trans (if_pos hzero))

/-- Settles O15. -/
theorem powerCases : Obligations.PowerCases := by
  intro rd rs rt s
  refine ⟨fun n hn hlo hhi => ?fits, fun n hn hout => ?overflow, fun hneg => ?negative⟩
  case fits => exact exec_completes_of_registerAlu .pow rfl (aluPow_of_fits hn ⟨hlo, hhi⟩)
  case overflow => exact exec_completes_of_registerAlu .pow rfl (aluPow_of_overflow hn hout)
  case negative => exact exec_completes_of_registerAlu .pow rfl (aluPow_of_negative _ hneg)

/-- Settles O17: the amount word decides the branch of `aluLs_eq` and `aluRs_eq`. -/
theorem shiftsByRegister : Obligations.ShiftsByRegister := by
  intro rd rs rt s
  refine ⟨fun hin => ⟨?left, ?right⟩, fun hout => ⟨?leftOut, ?rightOut⟩⟩
  case left => exact exec_completes_of_registerAlu .ls rfl ((aluLs_eq ..).trans (if_pos hin))
  case right => exact exec_completes_of_registerAlu .rs rfl ((aluRs_eq ..).trans (if_pos hin))
  case leftOut => exact exec_completes_of_registerAlu .ls rfl ((aluLs_eq ..).trans (if_neg (Nat.not_le.mpr hout)))
  case rightOut => exact exec_completes_of_registerAlu .rs rfl ((aluRs_eq ..).trans (if_neg (Nat.not_le.mpr hout)))

/-- Settles O18: the amount word decides the branch of `aluLr_eq` and `aluRr_eq`. -/
theorem rotatesByRegister : Obligations.RotatesByRegister := by
  intro rd rs rt s
  refine ⟨fun hin => ⟨?left, ?right⟩, fun hout => ⟨?leftOut, ?rightOut⟩⟩
  case left => exact exec_completes_of_registerAlu .lr rfl ((aluLr_eq ..).trans (if_pos hin))
  case right => exact exec_completes_of_registerAlu .rr rfl ((aluRr_eq ..).trans (if_pos hin))
  case leftOut => exact exec_completes_of_registerAlu .lr rfl ((aluLr_eq ..).trans (if_neg (Nat.not_le.mpr hout)))
  case rightOut => exact exec_completes_of_registerAlu .rr rfl ((aluRr_eq ..).trans (if_neg (Nat.not_le.mpr hout)))

/-- Settles O16: the ALU's three bitwise operations are the library's, and `xnor` is so by `aluXnor_eq`. -/
theorem bitwiseOperations : Obligations.BitwiseOperations := by
  intro rd rs rt s
  refine ⟨?and, ?or, ?xor, ?xnor⟩
  case and => exact exec_completes_of_registerAlu .and rfl rfl
  case or => exact exec_completes_of_registerAlu .or rfl rfl
  case xor => exact exec_completes_of_registerAlu .xor rfl rfl
  case xnor => exact exec_completes_of_registerAlu .xnor rfl (aluXnor_eq ..)

end

section
/-!
Memory access: what `stw` and `ldw` do in each region of the address map, RAM and display stores and loads from stored
words being `exec_stw_stored` and `exec_ldw_completes` (42_memory_access.md R140 to R143).
-/

namespace Sys2Proof.Machine

/-! ### The memory primitives by address (R62, R63) -/

/-- A write to ROM has no effect (R63, D9). -/
theorem memWrite_of_rom (s : State) {a : Word} (v : Word) (h : a.toNat < 256) : memWrite s a v = .ok s.mem := by
  rcases memWrite_cases s a v with ⟨-, hw⟩ | ⟨hlo, -, -⟩ | ⟨hlo, -⟩
  · exact hw
  · omega
  · omega

/-- A write to the keyboard's address or above is the fault (R63, D8). -/
theorem memWrite_of_notWritable (s : State) {a : Word} (v : Word) (h : 336 ≤ a.toNat) :
    memWrite s a v = .error (.unmappedAccess a) := by
  rcases memWrite_cases s a v with ⟨hhi, -⟩ | ⟨-, hhi, -⟩ | ⟨-, hw⟩
  · omega
  · omega
  · exact hw

/-- A read at the keyboard's address answers what the keyboard presents (R62, D10). -/
theorem memRead_of_keyboard (s : State) (key : Word) {a : Word} (h : a.toNat = 336) : memRead s key a = .ok key := by
  rcases memRead_cases s key a with ⟨hhi, -⟩ | ⟨-, hr⟩ | ⟨hlo, -⟩
  · omega
  · exact hr
  · omega

/-- A read above the keyboard's address is the fault (R62, D8). -/
theorem memRead_of_unmapped (s : State) (key : Word) {a : Word} (h : 337 ≤ a.toNat) :
    memRead s key a = .error (.unmappedAccess a) := by
  rcases memRead_cases s key a with ⟨hhi, -⟩ | ⟨heq, -⟩ | ⟨-, hr⟩
  · omega
  · omega
  · exact hr

/-- The keyboard's region is the one address 336 (R51). -/
theorem regionOf_of_keyboard {a : Word} (h : a.toNat = 336) : regionOf a = .keyboard := by
  rcases regionOf_spec a with ⟨hhi, -⟩ | ⟨-, hhi, -⟩ | ⟨-, hhi, -⟩ | ⟨-, hr⟩ | ⟨hlo, -⟩
  · omega
  · omega
  · omega
  · exact hr
  · omega

/-- A store leaves the flags, the switches and the keyboard as they are, so its end leaves what `FiveSteps` says of the
state before it (R35, R218). -/
theorem retire_storeWord_fiveSteps (s : State) (a : Nat) (w : Word) (isRead : Bool) (l : Latches) (target : Word) (d : Reg)
    (v : Word) : FiveSteps isRead s (retire (storeWord s a w) isRead l target d v) :=
  ⟨rfl, rfl, rfl, rfl, rfl, rfl, rfl, rfl, rfl⟩

/-! ### A store and a load by effective address (R141 to R143) -/

variable {rd rs : Reg} {imm : BitVec 6} {s : State}

/-- A `stw` to ROM completes, and writes neither memory nor a register (R63, R141). -/
theorem exec_stw_rom_completes (h : (effectiveAddress s rs imm).toNat < 256) :
    CompletesWith (exec (.stw rd rs imm) s) s .r0 0 s.nextPc := by
  simp only [exec, execStw, memWrite_of_rom s (s.x rd) h]
  exact retire_completes ..

/-- A `stw` where nothing can be written is the fault (R63, R141). -/
theorem exec_stw_faults (h : 336 ≤ (effectiveAddress s rs imm).toNat) :
    exec (.stw rd rs imm) s = .fault (.unmappedAccess (effectiveAddress s rs imm)) := by
  simp only [exec, execStw, memWrite_of_notWritable s (s.x rd) h]

/-- A `ldw` from 336 reads the keyboard, whatever its destination, and ends (R143). -/
theorem exec_ldw_keyboard (h : (effectiveAddress s rs imm).toNat = 336) :
    ∃ l, exec (.ldw rd rs imm) s = .next (retire s true l s.nextPc rd (keyboardRead s)) := by
  simp only [exec, execLdw, memRead_of_keyboard s (keyboardRead s) h, decide_eq_true (regionOf_of_keyboard h)]
  exact ⟨_, rfl⟩

/-- A `ldw` where nothing can be read is the fault (R62, R142). -/
theorem exec_ldw_faults (h : 337 ≤ (effectiveAddress s rs imm).toNat) :
    exec (.ldw rd rs imm) s = .fault (.unmappedAccess (effectiveAddress s rs imm)) := by
  simp only [exec, execLdw, memRead_of_unmapped s (keyboardRead s) h]

end Sys2Proof.Machine

open Sys2Proof Sys2Proof.Machine

/-- Settles O26, region by region; a store to RAM or display ends in `retire` over `storeWord`. -/
theorem storeByAddress : Obligations.StoreByAddress := by
  intro rd rs imm s
  refine ⟨effectiveAddress_toInt s rs imm, exec_stw_rom_completes, fun hlo hhi => ?stored, exec_stw_faults⟩
  case stored =>
    obtain ⟨l, hstored⟩ := exec_stw_stored (rd := rd) hlo hhi
    exact ⟨_, hstored, storeWord_word_self .., fun _ hne => storeWord_word_of_ne s _ hne,
      fun _ hne => retire_x_of_ne _ _ _ _ _ hne, rfl, retire_storeWord_fiveSteps ..⟩

/-- Settles O27, region by region; the read at 336 ends in `retire` with the keyboard's word. -/
theorem loadByAddress : Obligations.LoadByAddress := by
  intro rd rs imm s
  refine ⟨effectiveAddress_toInt s rs imm, exec_ldw_completes, fun hea => ?keyboard, exec_ldw_faults⟩
  case keyboard =>
    obtain ⟨l, hread⟩ := exec_ldw_keyboard (rd := rd) hea
    exact ⟨_, hread, retire_x_self .., fun _ hne => retire_x_of_ne _ _ _ _ _ hne, fun a => retire_word .., rfl,
      retire_fiveSteps ..⟩

end

section
/-!
The conditional branches: each compare as a relation between words, and each branch as taken exactly when its relation holds
(43_branches.md R150 to R156).
-/

namespace Sys2Proof.Machine

/-! ### The compares as relations between words (R138) -/

/-- `ALU.cmpeq` delivers 1 exactly on equal words. -/
theorem aluCmpEq_one_iff (a b : Word) : aluCmpEq a b = 1 ↔ a = b :=
  (aluCmp_one_iff a b).1.trans BitVec.toInt_inj

/-- `ALU.cmpne` delivers 1 exactly on unequal words. -/
theorem aluCmpNe_one_iff (a b : Word) : aluCmpNe a b = 1 ↔ a ≠ b :=
  (aluCmp_one_iff a b).2.1.trans (not_congr BitVec.toInt_inj)

/-- `ALU.cmpgt` is the library's signed order with its operands exchanged (R156; G13, log 12). -/
theorem aluCmpGt_one_iff (a b : Word) : aluCmpGt a b = 1 ↔ b.slt a = true :=
  (aluCmp_one_iff a b).2.2.1.trans BitVec.slt_iff_toInt_lt.symm

/-- `ALU.cmplt` is the library's signed order (R156; G13, log 12). -/
theorem aluCmpLt_one_iff (a b : Word) : aluCmpLt a b = 1 ↔ a.slt b = true :=
  (aluCmp_one_iff a b).2.2.2.trans BitVec.slt_iff_toInt_lt.symm

/-! ### Where a branch completes (R150) -/

/-- An instruction that is the branch of `op` is taken exactly when `op` delivers 1: it then completes at its target, and else at
the next word. -/
theorem exec_completes_of_compareAndBranch (op : AluOp) {i : Instr} {rd rs : Reg} {imm : BitVec 6} {s : State} {taken : Prop}
    [Decidable taken] (hexec : exec i s = compareAndBranch op i rd rs imm s)
    (htaken : aluApply op (s.x rd) (s.x rs) = 1 ↔ taken) :
    CompletesWith (exec i s) s .r0 0
      (if taken then BitVec.ofInt 16 ((s.pc.toNat : Int) + 1 + imm.toInt) else s.pc + 1) := by
  have hbranch := compareAndBranch_completes op i rd rs imm s
  simp only [branchTarget_eq, htaken] at hbranch
  rwa [hexec]

/-- A `beq` is taken exactly on equal words (R151). -/
theorem exec_beq_completes (rd rs : Reg) (imm : BitVec 6) (s : State) :
    CompletesWith (exec (.beq rd rs imm) s) s .r0 0
      (if s.x rd = s.x rs then BitVec.ofInt 16 ((s.pc.toNat : Int) + 1 + imm.toInt) else s.pc + 1) :=
  exec_completes_of_compareAndBranch .cmpEq rfl (aluCmpEq_one_iff ..)

/-- A `bne` is taken exactly on unequal words (R152). -/
theorem exec_bne_completes (rd rs : Reg) (imm : BitVec 6) (s : State) :
    CompletesWith (exec (.bne rd rs imm) s) s .r0 0
      (if s.x rd ≠ s.x rs then BitVec.ofInt 16 ((s.pc.toNat : Int) + 1 + imm.toInt) else s.pc + 1) :=
  exec_completes_of_compareAndBranch .cmpNe rfl (aluCmpNe_one_iff ..)

/-- A `beq` that compares a register with itself is always taken (R151). -/
theorem exec_beq_self_completes (r : Reg) (imm : BitVec 6) (s : State) :
    CompletesWith (exec (.beq r r imm) s) s .r0 0 (BitVec.ofInt 16 ((s.pc.toNat : Int) + 1 + imm.toInt)) := by
  have hbeq := exec_beq_completes r r imm s
  rwa [if_pos rfl] at hbeq

/-- A `bgt` is taken exactly when its second word is below its first in the signed order (R153). -/
theorem exec_bgt_completes (rd rs : Reg) (imm : BitVec 6) (s : State) :
    CompletesWith (exec (.bgt rd rs imm) s) s .r0 0
      (if (s.x rs).slt (s.x rd) then BitVec.ofInt 16 ((s.pc.toNat : Int) + 1 + imm.toInt) else s.pc + 1) :=
  exec_completes_of_compareAndBranch .cmpGt rfl (aluCmpGt_one_iff ..)

/-- A `blt` is taken exactly when its first word is below its second in the signed order (R154). -/
theorem exec_blt_completes (rd rs : Reg) (imm : BitVec 6) (s : State) :
    CompletesWith (exec (.blt rd rs imm) s) s .r0 0
      (if (s.x rd).slt (s.x rs) then BitVec.ofInt 16 ((s.pc.toNat : Int) + 1 + imm.toInt) else s.pc + 1) :=
  exec_completes_of_compareAndBranch .cmpLt rfl (aluCmpLt_one_iff ..)

end Sys2Proof.Machine

open Sys2Proof Sys2Proof.Machine

/-- Settles O24: the encodings and the two example words are evaluated, and `beq r0, r0` is a `beq` of a register with itself. -/
theorem equalityBranches : Obligations.EqualityBranches := by
  refine ⟨fun _ _ _ => ⟨rfl, rfl⟩, fun rd rs imm s => ⟨?beq, ?bne⟩, fun imm s => ?always, rfl, rfl⟩
  case beq => exact exec_beq_completes rd rs imm s
  case bne => exact exec_bne_completes rd rs imm s
  case always => exact exec_beq_self_completes .r0 imm s

/-- Settles O25. -/
theorem orderBranches : Obligations.OrderBranches :=
  fun rd rs imm s => ⟨exec_bgt_completes rd rs imm s, exec_blt_completes rd rs imm s⟩

end

section
/-!
The register-immediate ALU instructions: each completes with the word its ALU operation delivers for the extended immediate,
and that word in library terms (44_alu_immediate.md R160 to R168).
-/

namespace Sys2Proof.Machine

/-! ### The extended immediates (R10, R160) -/

/-- A sign-extended field runs from -32 to 31 (R10). -/
theorem imm6_toInt_range (f : BitVec 6) : -32 ≤ f.toInt ∧ f.toInt ≤ 31 :=
  ⟨f.le_toInt, Int.le_of_lt_add_one f.toInt_lt⟩

/-- Sign extension keeps the signed reading. -/
@[simp] theorem signedImm_toInt (f : BitVec 6) : (signedImm f).toInt = f.toInt := by
  rw [signedImm_eq, BitVec.toInt_signExtend_of_le (by decide)]

/-- Only the field 0 extends to the word 0. -/
@[simp] theorem signedImm_eq_zero_iff (f : BitVec 6) : signedImm f = 0 ↔ f = 0 := by
  rw [← BitVec.toInt_inj, ← BitVec.toInt_inj, signedImm_toInt]
  rfl

/-- Zero extension leaves 0 above the field's six bits. -/
theorem zeroExtend_highBits (f : BitVec 6) : (f.zeroExtend 16).extractLsb' 6 10 = 0#10 := by
  apply BitVec.eq_of_getLsbD_eq
  simp

/-! ### The ALU with an immediate operand (R161 to R163, R166, R167) -/

/-- The sum with a sign-extended immediate (R161). -/
theorem aluAdd_signedImm (a : Word) (f : BitVec 6) : aluAdd a (signedImm f) = BitVec.ofInt 16 (a.toInt + f.toInt) := by
  rw [aluAdd, trunc16, s16, s16, signedImm_toInt]

/-- The product with a sign-extended immediate (R162). -/
theorem aluMul_signedImm (a : Word) (f : BitVec 6) : aluMul a (signedImm f) = BitVec.ofInt 16 (a.toInt * f.toInt) := by
  rw [aluMul, trunc16, s16, s16, signedImm_toInt]

/-- The quotient by a sign-extended immediate in its two cases (R163, R137). -/
theorem aluDiv_signedImm (a : Word) (f : BitVec 6) :
    aluDiv a (signedImm f) = if f = 0 then Config.divZero a else a.sdiv (f.signExtend 16) := by
  simp only [aluDiv_eq, signedImm_eq_zero_iff]
  rfl

/-- The left shift by a zero-extended immediate in its two cases (R166, R137). -/
theorem aluLs_logicalImm (a : Word) (f : BitVec 6) :
    aluLs a (logicalImm f) = if f.toNat ≤ 31 then a <<< f.toNat else Config.shlOor a (f.zeroExtend 16) := by
  rw [aluLs_eq, logicalImm_toNat, logicalImm_eq]

/-- The right shift by a zero-extended immediate in its two cases (R167, R137). -/
theorem aluRs_logicalImm (a : Word) (f : BitVec 6) :
    aluRs a (logicalImm f) = if f.toNat ≤ 31 then a.sshiftRight f.toNat else Config.shrOor a (f.zeroExtend 16) := by
  rw [aluRs_eq, logicalImm_toNat, logicalImm_eq]

/-! ### What each instruction completes with (R160) -/

/-- An instruction that is the register-immediate ALU instruction of `op` with the extended immediate `b` completes with the word
`op` delivers, at the next word (R160). -/
theorem exec_completes_of_immediateAlu (op : AluOp) {i : Instr} {rd rs : Reg} {b : Word} {s : State} {v : Word}
    (hexec : exec i s = immediateAlu op i rd rs b s) (hv : aluApply op (s.x rs) b = v) :
    CompletesWith (exec i s) s rd v (s.pc + 1) := by
  rw [hexec, ← hv]
  exact immediateAlu_completes ..

section Completes
variable (rd rs : Reg) (imm : BitVec 6) (s : State)

theorem exec_addi_completes :
    CompletesWith (exec (.addi rd rs imm) s) s rd (BitVec.ofInt 16 ((s.x rs).toInt + imm.toInt)) (s.pc + 1) :=
  exec_completes_of_immediateAlu .add rfl (aluAdd_signedImm ..)

theorem exec_muli_completes :
    CompletesWith (exec (.muli rd rs imm) s) s rd (BitVec.ofInt 16 ((s.x rs).toInt * imm.toInt)) (s.pc + 1) :=
  exec_completes_of_immediateAlu .mul rfl (aluMul_signedImm ..)

theorem exec_andi_completes :
    CompletesWith (exec (.andi rd rs imm) s) s rd (s.x rs &&& imm.zeroExtend 16) (s.pc + 1) :=
  exec_completes_of_immediateAlu .and rfl (congrArg (s.x rs &&& ·) (logicalImm_eq imm))

theorem exec_ori_completes :
    CompletesWith (exec (.ori rd rs imm) s) s rd (s.x rs ||| imm.zeroExtend 16) (s.pc + 1) :=
  exec_completes_of_immediateAlu .or rfl (congrArg (s.x rs ||| ·) (logicalImm_eq imm))

/-- An `ori` from r0 loads its immediate (R165). -/
theorem exec_ori_r0_completes : CompletesWith (exec (.ori rd .r0 imm) s) s rd (imm.zeroExtend 16) (s.pc + 1) := by
  have hori := exec_ori_completes rd .r0 imm s
  have hzero : s.x .r0 = 0#16 := x_r0 s
  rwa [hzero, BitVec.zero_or] at hori

end Completes

/-! ### Bits 15 to 6 of the bitwise results (R164, R165) -/

/-- The AND with a zero-extended immediate clears them. -/
theorem and_zeroExtend_highBits (a : Word) (f : BitVec 6) : (a &&& f.zeroExtend 16).extractLsb' 6 10 = 0#10 := by
  rw [BitVec.extractLsb'_and, zeroExtend_highBits, BitVec.and_zero]

/-- The OR with a zero-extended immediate keeps them. -/
theorem or_zeroExtend_highBits (a : Word) (f : BitVec 6) :
    (a ||| f.zeroExtend 16).extractLsb' 6 10 = a.extractLsb' 6 10 := by
  rw [BitVec.extractLsb'_or, zeroExtend_highBits, BitVec.or_zero]

end Sys2Proof.Machine

open Sys2Proof Sys2Proof.Machine

/-- Settles O19: the encoding and the three example words are evaluated. -/
theorem addImmediate : Obligations.AddImmediate :=
  ⟨fun _ _ _ => rfl, imm6_toInt_range, exec_addi_completes, rfl, rfl, rfl⟩

/-- Settles O20: the encoding, the example word and the two example products are evaluated. -/
theorem multiplyImmediate : Obligations.MultiplyImmediate :=
  ⟨fun _ _ _ => rfl, imm6_toInt_range, exec_muli_completes, rfl, rfl, rfl⟩

/-- Settles O21: the immediate decides the branch of `aluDiv_signedImm`. -/
theorem divideImmediate : Obligations.DivideImmediate := by
  intro rd rs imm s
  refine ⟨fun hne => ?div, fun hzero => ?divZero⟩
  case div => exact exec_completes_of_immediateAlu .div rfl ((aluDiv_signedImm ..).trans (if_neg hne))
  case divZero => exact exec_completes_of_immediateAlu .div rfl ((aluDiv_signedImm ..).trans (if_pos hzero))

/-- Settles O22: the encodings and the examples are evaluated. -/
theorem andOrImmediate : Obligations.AndOrImmediate := by
  refine ⟨fun _ _ _ => ⟨rfl, rfl⟩, fun rd rs imm s => ⟨?andi, ?ori⟩, fun a imm => ⟨?cleared, ?kept⟩, rfl, rfl, rfl,
    fun imm rd s => ?constant⟩
  case andi => exact exec_andi_completes rd rs imm s
  case ori => exact exec_ori_completes rd rs imm s
  case cleared => exact and_zeroExtend_highBits a imm
  case kept => exact or_zeroExtend_highBits a imm
  case constant => exact exec_ori_r0_completes rd imm s

/-- Settles O23: the immediate decides the branch of `aluLs_logicalImm` and `aluRs_logicalImm`. -/
theorem shiftsByImmediate : Obligations.ShiftsByImmediate := by
  intro rd rs imm s
  refine ⟨fun hin => ⟨?left, ?right⟩, fun hout => ⟨?leftOut, ?rightOut⟩⟩
  case left => exact exec_completes_of_immediateAlu .ls rfl ((aluLs_logicalImm ..).trans (if_pos hin))
  case right => exact exec_completes_of_immediateAlu .rs rfl ((aluRs_logicalImm ..).trans (if_pos hin))
  case leftOut =>
    exact exec_completes_of_immediateAlu .ls rfl ((aluLs_logicalImm ..).trans (if_neg (Nat.not_le.mpr hout)))
  case rightOut =>
    exact exec_completes_of_immediateAlu .rs rfl ((aluRs_logicalImm ..).trans (if_neg (Nat.not_le.mpr hout)))

end

section
/-!
The assembler's pseudo-instructions and directives: the field each immediate becomes, the meaning of each expansion, and the
words and addresses that directives lay out (45_pseudo_and_directives.md R171 to R186).
-/

namespace Sys2Proof.Machine

/-! ### Running an expansion -/

/-- An instruction with a next state hands it to the rest of the list. -/
theorem execAll_cons_of_next {i : Instr} {s t : State} (h : exec i s = .next t) (is : List Instr) :
    execAll (i :: is) s = execAll is t := by
  simp only [execAll, h]

/-- A list of one instruction means that instruction. -/
@[simp] theorem execAll_singleton (i : Instr) (s : State) : execAll [i] s = exec i s := by
  simp only [execAll]
  cases exec i s <;> rfl

/-- What two instructions in a row leave unchanged. -/
theorem RegsSameBut.trans {d : Reg} {s t u : State} (hst : RegsSameBut d s t) (htu : RegsSameBut d t u) :
    RegsSameBut d s u :=
  fun r hr => (htu r hr).trans (hst r hr)

theorem MemorySame.trans {s t u : State} (hst : MemorySame s t) (htu : MemorySame t u) : MemorySame s u :=
  fun a => (htu a).trans (hst a)

/-! ### Immediates and their fields (R88, R186) -/

/-- A field's signed reading assembles to the field. -/
@[simp] theorem asSigned6_toInt (f : BitVec 6) : asSigned6 f.toInt = some f := by
  rw [asSigned6, if_pos (imm6_toInt_range f), BitVec.ofInt_toInt]

/-- A field's unsigned reading assembles to the field. -/
@[simp] theorem asLogical6_toNat (f : BitVec 6) : asLogical6 f.toNat = some f := by
  have hrange : (0 : Int) ≤ f.toNat ∧ (f.toNat : Int) ≤ 63 := by omega
  rw [asLogical6, if_pos hrange, BitVec.ofInt_natCast, BitVec.ofNat_toNat, BitVec.setWidth_eq]

/-- A value outside -32 to 31 is no signed field. -/
theorem asSigned6_of_outOfRange {v : Int} (h : v < -32 ∨ 31 < v) : asSigned6 v = none :=
  if_neg (by omega)

/-- Every value from -32 to 31 is the signed reading of a field. -/
theorem exists_toInt_eq {v : Int} (hlo : -32 ≤ v) (hhi : v ≤ 31) : ∃ f : BitVec 6, f.toInt = v :=
  ⟨BitVec.ofInt 6 v, BitVec.toInt_ofInt_eq_self (by decide) hlo (Int.lt_add_one_of_le hhi)⟩

/-- Every value from 0 to 63 is the unsigned reading of a field. -/
theorem exists_toNat_eq {v : Int} (hlo : 0 ≤ v) (hhi : v ≤ 63) : ∃ f : BitVec 6, (f.toNat : Int) = v := by
  lift v to Nat using hlo
  exact ⟨BitVec.ofNat 6 v, by rw [BitVec.toNat_ofNat, Nat.mod_eq_of_lt (by omega)]⟩

/-- A signed immediate that is a field's reading expands to the instructions with that field. -/
theorem map_asSigned6_toInt {α : Type} (instrs : BitVec 6 → α) (f : BitVec 6) :
    (asSigned6 f.toInt).map instrs = some (instrs f) := by
  rw [asSigned6_toInt, Option.map_some]

/-- An unsigned immediate that is a field's reading expands to the instructions with that field. -/
theorem map_asLogical6_toNat {α : Type} (instrs : BitVec 6 → α) (f : BitVec 6) :
    (asLogical6 f.toNat).map instrs = some (instrs f) := by
  rw [asLogical6_toNat, Option.map_some]

/-- `subi` of the negated reading of a field is the `addi` of that field (R175). -/
theorem expand_subi (rX rY : Reg) (f : BitVec 6) {v : Int} (hf : f.toInt = -v) :
    expand (.subi rX rY v) = some [.addi rX rY f] := by
  rw [expand, ← hf, map_asSigned6_toInt]

/-- `subi` has no expansion where the negated immediate is no field (R175, R186; log 14). -/
theorem expand_subi_of_outOfRange (rX rY : Reg) {v : Int} (h : v < -31 ∨ 32 < v) : expand (.subi rX rY v) = none := by
  rw [expand, asSigned6_of_outOfRange (by omega), Option.map_none]

/-! ### What the instructions of the expansions do -/

section Meanings
variable (rX rY : Reg) (f : BitVec 6) (s : State)

/-- An `add` of r0 copies its other operand (R171). -/
theorem exec_add_r0_completes : CompletesWith (exec (.add rX .r0 rY) s) s rX (s.x rY) (s.pc + 1) :=
  exec_completes_of_registerAlu .add rfl ((aluAdd_eq ..).trans (zero_add _))

/-- An `addi` from r0 loads its sign-extended immediate (R172). -/
theorem exec_addi_r0_completes : CompletesWith (exec (.addi rX .r0 f) s) s rX (BitVec.ofInt 16 f.toInt) (s.pc + 1) := by
  have haddi := exec_addi_completes rX .r0 f s
  have hzero : (s.x .r0).toInt = 0 := rfl
  rwa [hzero, zero_add] at haddi

/-- An `lsi` by 0 to 31 shifts in zeros (R166). -/
theorem exec_lsi_completes (h : f.toNat ≤ 31) :
    CompletesWith (exec (.lsi rX rY f) s) s rX (s.x rY <<< f.toNat) (s.pc + 1) :=
  exec_completes_of_immediateAlu .ls rfl ((aluLs_logicalImm ..).trans (if_pos h))

/-- A `bgt` is taken exactly when its first word is the greater as an integer (R153). -/
theorem exec_bgt_completes_toInt :
    CompletesWith (exec (.bgt rX rY f) s) s .r0 0
      (if (s.x rY).toInt < (s.x rX).toInt then BitVec.ofInt 16 ((s.pc.toNat : Int) + 1 + f.toInt) else s.pc + 1) := by
  simpa only [BitVec.slt_iff_toInt_lt] using exec_bgt_completes rX rY f s

/-- A `blt` is taken exactly when its first word is the smaller as an integer (R154). -/
theorem exec_blt_completes_toInt :
    CompletesWith (exec (.blt rX rY f) s) s .r0 0
      (if (s.x rX).toInt < (s.x rY).toInt then BitVec.ofInt 16 ((s.pc.toNat : Int) + 1 + f.toInt) else s.pc + 1) := by
  simpa only [BitVec.slt_iff_toInt_lt] using exec_blt_completes rX rY f s

end Meanings

/-! ### `movia` (R174) -/

/-- The upper six bits shifted up by six, with the lower six below them, are the 12-bit value. -/
theorem movia_halves_join (v : BitVec 12) :
    ((v.extractLsb' 6 6).zeroExtend 16 <<< 6) ||| (v.extractLsb' 0 6).zeroExtend 16 = v.zeroExtend 16 := by
  apply BitVec.eq_of_getLsbD_eq
  intro k hk
  rcases Nat.lt_or_ge k 6 with hlow | hhigh
  case inl => simp [hlow]
  case inr =>
    have hbit : 6 + (k - 6) = k := Nat.add_sub_of_le hhigh
    have hupper : v.getLsbD k = true → k - 6 < 6 := fun hset => Nat.sub_lt_left_of_lt_add hhigh (BitVec.lt_of_getLsbD hset)
    simpa [hk, Nat.not_lt.mpr hhigh, hbit] using hupper

/-! ### Directives (R183, R184) -/

/-- A label's address is the start plus the amounts before it. -/
theorem mallocFrom_getElem? (start : Nat) (amounts : List Nat) {k : Nat} (h : k < amounts.length) :
    (mallocFrom start amounts)[k]? = some (start + (amounts.take k).sum) := by
  induction amounts generalizing start k with
  | nil => exact absurd h (Nat.not_lt_zero k)
  | cons n ns ih =>
    cases k with
    | zero => rfl
    | succ k =>
      have htail := ih (start + n) (Nat.lt_of_succ_lt_succ h)
      rwa [Nat.add_assoc, ← List.sum_cons, ← List.take_succ_cons] at htail

/-- The words of a text before the final 0. -/
theorem asciz_getElem? (text : List Char) {k : Nat} (h : k < text.length) :
    (asciz text)[k]? = some (BitVec.ofNat 16 text[k].toUpper.toNat) := by
  rw [asciz, List.getElem?_append_left (by rwa [List.length_map]), List.getElem?_map, List.getElem?_eq_getElem h,
    Option.map_some]

end Sys2Proof.Machine

open Sys2Proof Sys2Proof.Machine

/-- Settles O53: r0 reads 0, so the sum and the OR with it are the extended immediate; the example words are evaluated. -/
theorem moveImmediatesLoadTheValue : Obligations.MoveImmediatesLoadTheValue := by
  refine ⟨fun rX v hlo hhi => ?movi, fun rX v hlo hhi => ?moviu, rfl, rfl, rfl, rfl⟩
  case movi =>
    obtain ⟨f, rfl⟩ := exists_toInt_eq hlo hhi
    refine ⟨f, map_asSigned6_toInt .., fun s => ?_⟩
    rw [execAll_singleton]
    exact exec_addi_r0_completes rX f s
  case moviu =>
    obtain ⟨f, rfl⟩ := exists_toNat_eq hlo hhi
    refine ⟨f, map_asLogical6_toNat .., fun s => ?_⟩
    have hword : BitVec.ofInt 16 f.toNat = f.zeroExtend 16 := logicalImm_eq f
    rw [execAll_singleton, hword]
    exact exec_ori_r0_completes rX f s

/-- Settles O54: the three instructions run one after another; the word in rX is read through them, and the frames compose. -/
theorem moviaLoadsTwelveBits : Obligations.MoviaLoadsTwelveBits := by
  intro rX v s hne
  obtain ⟨t, hori, hxt, hpct, hregst, hmemt, -⟩ := exec_ori_r0_completes rX (v.extractLsb' 6 6) s
  obtain ⟨u, hlsi, hxu, hpcu, hregsu, hmemu, -⟩ := exec_lsi_completes rX rX 6#6 t (by decide)
  obtain ⟨w, hlow, hxw, hpcw, hregsw, hmemw, -⟩ := exec_ori_completes rX rX (v.extractLsb' 0 6) u
  rw [if_neg hne] at hxt hxu hxw
  refine ⟨w, ?runs, ?value, (hregst.trans hregsu).trans hregsw, (hmemt.trans hmemu).trans hmemw, ?pc⟩
  case runs => rw [expandMovia, execAll_cons_of_next hori, execAll_cons_of_next hlsi, execAll_singleton, hlow]
  case value =>
    rw [hxw, hxu, hxt]
    exact movia_halves_join v
  case pc =>
    rw [hpcw, hpcu, hpct, add_assoc, add_assoc]
    rfl

/-- Settles O55: adding the negated value is subtracting it; the example word is evaluated. -/
theorem subiSubtracts : Obligations.SubiSubtracts := by
  refine ⟨fun rX rY v hlo hhi => ?inRange, fun rX rY _ hout => expand_subi_of_outOfRange rX rY hout, rfl⟩
  case inRange =>
    obtain ⟨f, hf⟩ := exists_toInt_eq (v := -v) (by omega) (by omega)
    refine ⟨f, hf, expand_subi rX rY f hf, fun s => ?_⟩
    rw [execAll_singleton, Int.sub_eq_add_neg, ← hf]
    exact exec_addi_completes rX rY f s

/-- Settles O56: with the registers exchanged, `blt` and `bgt` compare the same two words. -/
theorem bgeAndBleAreStrict : Obligations.BgeAndBleAreStrict := by
  refine ⟨fun rX rY off hlo hhi => ?branches, rfl, rfl⟩
  case branches =>
    obtain ⟨f, rfl⟩ := exists_toInt_eq hlo hhi
    exact ⟨f, map_asSigned6_toInt .., map_asSigned6_toInt .., fun s =>
      ⟨exec_blt_completes_toInt rY rX f s, exec_bgt_completes_toInt rX rY f s,
        exec_bgt_completes_toInt rY rX f s, exec_blt_completes_toInt rX rY f s⟩⟩

/-- Settles O57: the compare is with r0, which reads 0; the words at the examples' labels are evaluated. -/
theorem branchOnZero : Obligations.BranchOnZero := by
  refine ⟨fun rX off hlo hhi => ?branches, rfl, rfl⟩
  case branches =>
    obtain ⟨f, rfl⟩ := exists_toInt_eq hlo hhi
    refine ⟨f, map_asSigned6_toInt .., map_asSigned6_toInt .., fun s => ?_⟩
    rw [execAll_singleton, execAll_singleton]
    exact ⟨exec_beq_completes rX .r0 f s, exec_bne_completes rX .r0 f s⟩

/-- Settles O52; the example word is evaluated. -/
theorem movCopiesARegister : Obligations.MovCopiesARegister := by
  refine ⟨fun rX rY => ⟨rfl, fun s => ?copies⟩, rfl⟩
  case copies =>
    rw [execAll_singleton]
    exact exec_add_r0_completes rX rY s

/-- Settles O58: `br` compares r0 with itself, and `nop` copies r0 to r0; the example words are evaluated. -/
theorem brAlwaysBranchesAndNopDoesNothing : Obligations.BrAlwaysBranchesAndNopDoesNothing := by
  refine ⟨fun off hlo hhi => ?br, rfl, fun s => ?nop, rfl, rfl⟩
  case br =>
    obtain ⟨f, rfl⟩ := exists_toInt_eq hlo hhi
    refine ⟨f, map_asSigned6_toInt .., fun s => ?_⟩
    rw [execAll_singleton]
    exact exec_beq_self_completes .r0 f s
  case nop =>
    rw [execAll_singleton]
    exact exec_add_r0_completes .r0 .r0 s

/-- Settles O59: the example is evaluated; the final 0 is the last word of the append. -/
theorem directivesLayOutWords : Obligations.DirectivesLayOutWords := by
  refine ⟨by decide, fun text => ⟨?length, ?last, fun _ h => asciz_getElem? text h⟩, fun amounts _ h => ?label⟩
  case length => rw [asciz, List.length_append, List.length_map, List.length_singleton]
  case last => exact List.getLast?_concat
  case label => exact mallocFrom_getElem? Config.romEnd amounts h

end

section
/-!
The keyboard and the operator: the keyboard's machine row by row and over sequences of periods, what a load from 336 gets,
that no other instruction looks at the keyboard, and that the operator's moves lead from good states to good states
(60_exceptions.md R211 to R224; 70_reset_and_hazards.md R240 to R245, R254).
-/

namespace Sys2Proof.Machine

/-! ### The rows of the transition table (R213, C9) -/

section Rows
variable (b : Word) (e : Bool)

@[simp] theorem kbdTick_reset (i : Word) : kbdTick ⟨.reset, b⟩ i e = (⟨.waitPress, b⟩, 0) := rfl

theorem kbdTick_waitPress_held {i : Word} (h : i ≠ 0) : kbdTick ⟨.waitPress, b⟩ i e = (⟨.storeKey, b⟩, 0) := by
  simp only [kbdTick, if_neg h]

@[simp] theorem kbdTick_waitPress_released : kbdTick ⟨.waitPress, b⟩ 0 e = (⟨.waitPress, b⟩, 0) := rfl

theorem kbdTick_storeKey_held {i : Word} (h : i ≠ 0) : kbdTick ⟨.storeKey, b⟩ i e = (⟨.waitRead, i⟩, 0) := by
  simp only [kbdTick, if_neg h]

@[simp] theorem kbdTick_storeKey_released : kbdTick ⟨.storeKey, b⟩ 0 e = (⟨.waitPress, 0⟩, 0) := rfl

@[simp] theorem kbdTick_waitRead_read (i : Word) : kbdTick ⟨.waitRead, b⟩ i true = (⟨.waitRelease, 0⟩, b) := rfl

@[simp] theorem kbdTick_waitRead_unread (i : Word) : kbdTick ⟨.waitRead, b⟩ i false = (⟨.waitRead, b⟩, 0) := rfl

theorem kbdTick_waitRelease_held {i : Word} (h : i ≠ 0) :
    kbdTick ⟨.waitRelease, b⟩ i e = (⟨.waitRelease, b⟩, 0) := by
  simp only [kbdTick, if_neg h]

@[simp] theorem kbdTick_waitRelease_released : kbdTick ⟨.waitRelease, b⟩ 0 e = (⟨.waitPress, b⟩, 0) := rfl

end Rows

/-- Outside state 3 the read signal makes no difference (R213, R215). -/
theorem kbdTick_read_of_notWaitRead {k : Keyboard} (i : Word) (h : k.q ≠ .waitRead) :
    kbdTick k i true = kbdTick k i false := by
  obtain ⟨q, b⟩ := k
  cases q
  case waitRead => exact absurd rfl h
  all_goals rfl

/-! ### Sequences of periods (R213) -/

@[simp] theorem kbdRun_nil (k : Keyboard) : kbdRun k [] = (k, []) := rfl

theorem kbdRun_cons (k : Keyboard) (i : Word) (e : Bool) (ins : List (Word × Bool)) :
    kbdRun k ((i, e) :: ins) =
      ((kbdRun (kbdTick k i e).1 ins).1, (kbdTick k i e).2 :: (kbdRun (kbdTick k i e).1 ins).2) := rfl

/-- Every sequence of periods keeps the buffer nonzero exactly in state 3. -/
theorem kbdRun_buffer {k : Keyboard} (ins : List (Word × Bool)) (h : BufferHoldsKeyInState3 k) :
    BufferHoldsKeyInState3 (kbdRun k ins).1 := by
  induction ins generalizing k with
  | nil => exact h
  | cons p ins ih => exact ih (kbdTick_buffer p.1 p.2 h)

/-- Periods none of which moves the keyboard or gives an output leave it where it is, with every output 0. -/
theorem kbdRun_of_quiet {k : Keyboard} {ins : List (Word × Bool)} (h : ∀ p ∈ ins, kbdTick k p.1 p.2 = (k, 0)) :
    kbdRun k ins = (k, List.replicate ins.length 0) := by
  induction ins with
  | nil => rfl
  | cons p ins ih =>
    have hhead : kbdTick k p.1 p.2 = (k, 0) := h p List.mem_cons_self
    have htail : kbdRun k ins = (k, List.replicate ins.length 0) := ih fun p' hp' => h p' (List.mem_cons_of_mem p hp')
    rw [kbdRun_cons, hhead, htail, List.length_cons, List.replicate_succ]

/-- While a key is held a keyboard that waits for release stays as it is (R216 (b)). -/
theorem kbdRun_waitRelease_held (b : Word) {ins : List (Word × Bool)} (h : ∀ p ∈ ins, p.1 ≠ 0) :
    kbdRun ⟨.waitRelease, b⟩ ins = (⟨.waitRelease, b⟩, List.replicate ins.length 0) :=
  kbdRun_of_quiet fun p hp => kbdTick_waitRelease_held b p.2 (h p hp)

/-- A captured key waits through any key data that comes without a read (R216 (c), C9). -/
theorem kbdRun_waitRead_unread (b : Word) (waiting : List Word) :
    kbdRun ⟨.waitRead, b⟩ (waiting.map fun v => (v, false)) = (⟨.waitRead, b⟩, List.replicate waiting.length 0) := by
  have hquiet : ∀ p ∈ waiting.map fun v => (v, false), kbdTick ⟨.waitRead, b⟩ p.1 p.2 = (⟨.waitRead, b⟩, 0) := by
    intro p hp
    obtain ⟨v, -, rfl⟩ := List.mem_map.mp hp
    exact kbdTick_waitRead_unread b v
  rw [kbdRun_of_quiet hquiet, List.length_map]

/-- A sequence of periods has a nonzero output: some read gets a key. -/
def Delivers (k : Keyboard) (ins : List (Word × Bool)) : Prop := ∃ o ∈ (kbdRun k ins).2, o ≠ 0

theorem not_delivers_nil (k : Keyboard) : ¬Delivers k [] := by
  simp [Delivers]

theorem delivers_cons_iff (k : Keyboard) (i : Word) (e : Bool) (ins : List (Word × Bool)) :
    Delivers k ((i, e) :: ins) ↔ (kbdTick k i e).2 ≠ 0 ∨ Delivers (kbdTick k i e).1 ins := by
  simp only [Delivers, kbdRun_cons, List.exists_mem_cons_iff]

/-- A first period with output 0 leaves the delivery to the periods after it. -/
theorem Delivers.tail {k k' : Keyboard} {i : Word} {e : Bool} {ins : List (Word × Bool)}
    (h : Delivers k ((i, e) :: ins)) (ht : kbdTick k i e = (k', 0)) : Delivers k' ins := by
  rw [delivers_cons_iff, ht] at h
  exact h.resolve_left fun hne => hne rfl

/-- Somewhere in a sequence of periods a key is held across two consecutive edges. -/
def HeldAcrossTwoEdges (ins : List (Word × Bool)) : Prop :=
  ∃ mid i1 e1 i2 e2 post, ins = mid ++ (i1, e1) :: (i2, e2) :: post ∧ i1 ≠ 0 ∧ i2 ≠ 0

theorem HeldAcrossTwoEdges.cons {ins : List (Word × Bool)} (h : HeldAcrossTwoEdges ins) (p : Word × Bool) :
    HeldAcrossTwoEdges (p :: ins) := by
  obtain ⟨mid, i1, e1, i2, e2, post, rfl, h1, h2⟩ := h
  exact ⟨p :: mid, i1, e1, i2, e2, post, rfl, h1, h2⟩

/-- From state 1 a key comes out only after one was held across two edges: a press of one edge leads by state 2 back to
state 1, which is why the induction goes two periods at a time (R213, R216). -/
theorem heldAcrossTwoEdges_of_delivers {b : Word} {ins : List (Word × Bool)} (h : Delivers ⟨.waitPress, b⟩ ins) :
    HeldAcrossTwoEdges ins := by
  induction ins using List.twoStepInduction generalizing b with
  | nil => exact absurd h (not_delivers_nil _)
  | singleton p =>
    obtain ⟨i, e⟩ := p
    by_cases hi : i = 0
    · subst hi
      exact absurd (h.tail (kbdTick_waitPress_released b e)) (not_delivers_nil _)
    · exact absurd (h.tail (kbdTick_waitPress_held b e hi)) (not_delivers_nil _)
  | cons_cons p p' ins ih ih' =>
    obtain ⟨i, e⟩ := p
    obtain ⟨i', e'⟩ := p'
    by_cases hi : i = 0
    · subst hi
      exact (ih' (i', e') (h.tail (kbdTick_waitPress_released b e))).cons _
    · have hstore : Delivers ⟨.storeKey, b⟩ ((i', e') :: ins) := h.tail (kbdTick_waitPress_held b e hi)
      by_cases hi' : i' = 0
      · subst hi'
        exact ((ih (hstore.tail (kbdTick_storeKey_released b e'))).cons _).cons _
      · exact ⟨[], i, e, i', e', ins, rfl, hi, hi'⟩

/-- From state 4 a key comes out only after a period with every key released and, later, one held across two edges
(R216 (b)). -/
theorem released_then_heldAcrossTwoEdges {b : Word} {ins : List (Word × Bool)} (h : Delivers ⟨.waitRelease, b⟩ ins) :
    ∃ pre e0 rest, ins = pre ++ (0, e0) :: rest ∧ HeldAcrossTwoEdges rest := by
  induction ins with
  | nil => exact absurd h (not_delivers_nil _)
  | cons p ins ih =>
    obtain ⟨i, e⟩ := p
    by_cases hi : i = 0
    · subst hi
      exact ⟨[], e, ins, rfl, heldAcrossTwoEdges_of_delivers (h.tail (kbdTick_waitRelease_released b e))⟩
    · obtain ⟨pre, e0, rest, rfl, hrest⟩ := ih (h.tail (kbdTick_waitRelease_held b e hi))
      exact ⟨(i, e) :: pre, e0, rest, rfl, hrest⟩

/-! ### The read in step 4 (R215, R216, R218) -/

/-- The keyboard's five periods in an instruction: three without a read, step 4, and one more without (R218). -/
theorem kbdInstr_eq (s : State) (isRead : Bool) :
    kbdInstr s isRead = ((kbdTick (kbdTick (idleKeyboard s 3) (s.keyIn 4) isRead).1 (s.keyIn 5) false).1,
      (kbdTick (idleKeyboard s 3) (s.keyIn 4) isRead).2) := rfl

theorem keyboardRead_eq (s : State) : keyboardRead s = (kbdTick (idleKeyboard s 3) (s.keyIn 4) true).2 := rfl

theorem kbdRun_threePeriods (s : State) :
    (kbdRun s.kbd [(s.keyIn 1, false), (s.keyIn 2, false), (s.keyIn 3, false)]).1 = idleKeyboard s 3 := rfl

/-- Periods without a read keep the buffer key data (R211, R216 (a)). -/
theorem idleKeyboard_bufferLegal {s : State} (hs : Inv s) (n : Nat) : isKeyData (idleKeyboard s n).kb = true := by
  induction n with
  | zero => exact hs.bufferLegal
  | succ n ih => exact kbdTick_bufferLegal false (keyIn_legal hs.keysLegal (n + 1)) ih

theorem isKeyData_iff (w : Word) : isKeyData w = true ↔ w = 0 ∨ isKeyCode w = true := by
  simp [isKeyData]

/-- In a good state a read of the keyboard gets 0 or a key code (R216 (a)). -/
theorem keyboardRead_legal {s : State} (hs : Inv s) : keyboardRead s = 0 ∨ isKeyCode (keyboardRead s) = true := by
  rw [keyboardRead_eq]
  rcases kbdTick_output (idleKeyboard s 3) (s.keyIn 4) true with hzero | hkey
  · exact .inl hzero
  · rw [hkey]
    exact (isKeyData_iff _).mp (idleKeyboard_bufferLegal hs 3)

/-! ### Replacing the keyboard and its input (R66, R218) -/

/-- `s` with another keyboard and another script of key data. -/
def rekey (s : State) (k : Keyboard) (ks : List Word) : State := { s with kbd := k, keys := ks }

/-- Outcomes that differ in the keyboard's own fields at most. -/
inductive SameButKeyboard : Host.Outcome State Fault Refusal → Host.Outcome State Fault Refusal → Prop
  | next (t : State) (k : Keyboard) (ks : List Word) : SameButKeyboard (.next t) (.next (rekey t k ks))
  | fault (f : Fault) : SameButKeyboard (.fault f) (.fault f)
  | refused (r : Refusal) : SameButKeyboard (.refused r) (.refused r)

theorem SameButKeyboard.of_next {t : State} {o : Host.Outcome State Fault Refusal} (h : SameButKeyboard (.next t) o) :
    ∃ k ks, o = .next (rekey t k ks) := by
  cases h with
  | next _ k ks => exact ⟨k, ks, rfl⟩

theorem SameButKeyboard.of_fault {f : Fault} {o : Host.Outcome State Fault Refusal} (h : SameButKeyboard (.fault f) o) :
    o = .fault f := by
  cases h with
  | fault => rfl

theorem SameButKeyboard.of_refused {r : Refusal} {o : Host.Outcome State Fault Refusal}
    (h : SameButKeyboard (.refused r) o) : o = .refused r := by
  cases h with
  | refused => rfl

/-- The end of an instruction hands the replaced fields on, and no other field comes from them. -/
theorem retire_rekey (s : State) (k : Keyboard) (ks : List Word) (isRead : Bool) (l : Latches) (target : Word) (d : Reg)
    (v : Word) : retire (rekey s k ks) isRead l target d v =
      rekey (retire s isRead l target d v) (kbdInstr (rekey s k ks) isRead).1 (ks.drop 5) := rfl

theorem sameButKeyboard_retire (s : State) (k : Keyboard) (ks : List Word) (isRead : Bool) (l : Latches) (target : Word)
    (d : Reg) (v : Word) :
    SameButKeyboard (.next (retire s isRead l target d v)) (.next (retire (rekey s k ks) isRead l target d v)) := by
  rw [retire_rekey]
  exact .next ..

/-- A read of ROM, RAM or display answers the word there (R62). -/
theorem memRead_of_stored (s : State) (key : Word) {a : Word} (h : a.toNat < 336) :
    memRead s key a = .ok (s.word a.toNat) := by
  rcases memRead_cases s key a with ⟨-, hr⟩ | ⟨heq, -⟩ | ⟨hge, -⟩
  · exact hr
  · omega
  · omega

/-- A read anywhere but at 336 does not look at what the keyboard presents (R62). -/
theorem memRead_key_of_notKeyboard (s : State) (key key' : Word) {a : Word} (h : a.toNat ≠ 336) :
    memRead s key a = memRead s key' a := by
  rcases Nat.lt_or_gt_of_ne h with hlt | hgt
  · rw [memRead_of_stored s key hlt, memRead_of_stored s key' hlt]
  · rw [memRead_of_unmapped s key hgt, memRead_of_unmapped s key' hgt]

/-- A store does the same whatever the keyboard holds. -/
theorem execStw_rekey (rd rs : Reg) (imm : BitVec 6) (s : State) (k : Keyboard) (ks : List Word) :
    SameButKeyboard (execStw rd rs imm s) (execStw rd rs imm (rekey s k ks)) := by
  have hw : memWrite (rekey s k ks) (effectiveAddress s rs imm) (s.x rd) =
      memWrite s (effectiveAddress s rs imm) (s.x rd) := rfl
  have hea : effectiveAddress (rekey s k ks) rs imm = effectiveAddress s rs imm := rfl
  have hx : (rekey s k ks).x rd = s.x rd := rfl
  simp only [execStw, hea, hx, hw]
  cases memWrite s (effectiveAddress s rs imm) (s.x rd) with
  | error f => exact .fault f
  | ok m => exact sameButKeyboard_retire { s with mem := m } k ks ..

/-- So does a load from anywhere but 336 (R66, R218). -/
theorem execLdw_rekey {rd rs : Reg} {imm : BitVec 6} {s : State} (k : Keyboard) (ks : List Word)
    (h : (effectiveAddress s rs imm).toNat ≠ 336) :
    SameButKeyboard (execLdw rd rs imm s) (execLdw rd rs imm (rekey s k ks)) := by
  have hr : memRead (rekey s k ks) (keyboardRead (rekey s k ks)) (effectiveAddress s rs imm) =
      memRead s (keyboardRead s) (effectiveAddress s rs imm) := memRead_key_of_notKeyboard s _ _ h
  have hea : effectiveAddress (rekey s k ks) rs imm = effectiveAddress s rs imm := rfl
  simp only [execLdw, hea, hr]
  cases memRead s (keyboardRead s) (effectiveAddress s rs imm) with
  | error f => exact .fault f
  | ok v => exact sameButKeyboard_retire s k ks ..

/-- `exit` leaves the keyboard as it is and does not look at it (log 8). -/
theorem execExit_rekey (s : State) (k : Keyboard) (ks : List Word) :
    SameButKeyboard (execExit s) (execExit (rekey s k ks)) := by
  by_cases hs : s.startup = true
  · have hs' : (rekey s k ks).startup = true := hs
    simp only [execExit, if_pos hs, if_pos hs']
    exact .refused _
  · have hs' : ¬(rekey s k ks).startup = true := hs
    simp only [execExit, if_neg hs, if_neg hs']
    exact .next (halt s) k ks

/-- No instruction but a load from 336 looks at the keyboard or its input. -/
theorem exec_rekey {i : Instr} {s : State} (k : Keyboard) (ks : List Word)
    (h : ∀ rd rs imm, i = .ldw rd rs imm → (effectiveAddress s rs imm).toNat ≠ 336) :
    SameButKeyboard (exec i s) (exec i (rekey s k ks)) := by
  cases i
  case stw rd rs imm => exact execStw_rekey rd rs imm s k ks
  case ldw rd rs imm => exact execLdw_rekey k ks (h rd rs imm rfl)
  case exit => exact execExit_rekey s k ks
  case reservedId17 | reservedId18 | reservedLtype => exact .fault _
  -- the register, immediate and branch families, `call` and `ret`: each ends in one `retire`
  all_goals exact sameButKeyboard_retire s k ks ..

/-! ### The controller and the operator's moves (R222 to R224, R240 to R245) -/

/-- The modes of a state with Reset off, as its flags and switches give them (R36). -/
theorem runMode_of_resetOff {s : State} (hoff : s.resetSwitch = false) :
    s.runMode = if s.running then (if s.automatic then .executing else .disengaged)
      else if s.startup then (if s.exitFlag then .startConflict else if s.automatic then .starting else .disengaged)
      else .stopped := by
  simp only [State.runMode, hoff, Bool.false_eq_true, if_false]

theorem runMode_of_startConflict {s : State} (hoff : s.resetSwitch = false) (hrun : s.running = false)
    (hstart : s.startup = true) (hexit : s.exitFlag = true) : s.runMode = .startConflict := by
  simp [runMode_of_resetOff hoff, hrun, hstart, hexit]

/-- A stopped clock changes nothing (R224). -/
theorem step_of_stopped {s : State} (h : s.runMode = .stopped) : step s = .next s := by
  simp only [step, runStep, h]

theorem step_of_disengaged {s : State} (h : s.runMode = .disengaged) : step s = .refused .automaticOff := by
  simp only [step, runStep, h]

theorem step_of_startConflict {s : State} (h : s.runMode = .startConflict) : step s = .refused .startupWhileExit := by
  simp only [step, runStep, h]

/-- All that turning Startup on can do when it answers a next state: it starts the run of a stopped processor with
Exit = 0, or moves the switch only (R242, R245). -/
theorem startupOn_next {s t : State} (h : startupOn s = .next t) :
    (s.resetSwitch = false ∧ s.exitFlag = false ∧ t = startRun { s with startup := true }) ∨
      t = { s with startup := true } := by
  unfold startupOn at h
  dsimp only at h
  rcases runMode_cases { s with startup := true } with ⟨-, e⟩ | ⟨-, e⟩ | ⟨-, -, -, e⟩ | ⟨-, -, -, e⟩ | ⟨-, -, -, -, e⟩ |
    ⟨hoff, -, -, hexit, -, e⟩ | ⟨-, -, -, -, -, e⟩ <;> rw [e] at h <;> cases h
  case inr.inr.inr.inr.inr.inl => exact .inl ⟨hoff, hexit, rfl⟩
  all_goals exact .inr rfl

/-- What the operator may set from outside keeps a state good: any position of Startup and Automatic, canonical memory, and
a script of key data (R211, R222). Reset does not clear these, so a held state stays held. -/
theorem Inv.setInputs {s : State} (h : Inv s) {m : Memory} {ks : List Word} (hm : m.wf = true)
    (hk : ks.all isKeyData = true) (startup automatic : Bool) :
    Inv { s with mem := m, keys := ks, startup := startup, automatic := automatic } where
  memory := hm
  buffer := h.buffer
  bufferLegal := h.bufferLegal
  keysLegal := hk
  exitStops := h.exitStops
  stepNamed := h.stepNamed
  resetHeld := fun hon => congrArg
    (fun t : State => { t with mem := m, keys := ks, startup := startup, automatic := automatic }) (h.resetHeld hon)

/-- The position of Startup is no part of what makes a state good. -/
theorem Inv.setStartup {s : State} (h : Inv s) (on : Bool) : Inv { s with startup := on } :=
  h.setInputs h.memory h.keysLegal on s.automatic

/-- An image in ROM lists words of ROM only, for it is cut at ROM's end (R52, log 10). -/
theorem withRomImage_wf {s : State} (h : s.mem.wf = true) (image : List Word) : (withRomImage s image).mem.wf = true := by
  have hend : 0 + (image.take Config.romEnd).length ≤ 336 := by rw [placedImage_length]; omega
  exact storeAll_wf _ h hend

/-- A good state stays good when Reset is turned off. -/
theorem Inv.setResetOff {s : State} (h : Inv s) : Inv { s with resetSwitch := false } where
  memory := h.memory
  buffer := h.buffer
  bufferLegal := h.bufferLegal
  keysLegal := h.keysLegal
  exitStops := h.exitStops
  stepNamed := h.stepNamed
  resetHeld := nofun

/-- Turning Reset on leads from a good state to a good state, the reset values standing from then on (R240). -/
theorem Inv.setResetOn {s : State} (h : Inv s) : Inv (Machine.resetRegisters { s with resetSwitch := true }) where
  memory := h.memory
  buffer := bufferHoldsKeyInState3_cleared
  bufferLegal := rfl
  keysLegal := h.keysLegal
  exitStops := fun _ => rfl
  stepNamed := nofun
  resetHeld := fun _ => resetRegisters_idem _

/-- A script is accepted only if it is one of key data (R211, R219). -/
theorem operate_setKeys_next {script : List Word} {s t : State} (h : operate (.setKeys script) s = .next t) :
    script.all isKeyData = true ∧ t = { s with keys := script } := by
  by_cases hk : script.all isKeyData = true
  · have haccept : operate (.setKeys script) s = .next { s with keys := script } := if_pos hk
    cases haccept.symm.trans h
    exact ⟨hk, rfl⟩
  · have hrefuse : operate (.setKeys script) s = .refused .notAKeyCode := if_neg hk
    cases hrefuse.symm.trans h

/-- Every move of the operator keeps a state good, by the move. -/
theorem operate_keepsInv {m : OperatorMove} {s t : State} (hs : Inv s) (h : operate m s = .next t) : Inv t := by
  match m with
  | .loadRom image =>
    cases hrun : s.running with
    | true => cases (operate_loadRom_of_running image hrun).symm.trans h
    | false =>
      cases (operate_loadRom_of_stopped image hrun).symm.trans h
      exact hs.setInputs (withRomImage_wf hs.memory image) hs.keysLegal s.startup s.automatic
  | .setReset true => cases h; exact hs.setResetOn
  | .setReset false => cases h; exact hs.setResetOff
  | .setStartup true =>
    rcases startupOn_next h with ⟨hoff, hexit, rfl⟩ | rfl
    · exact (hs.setStartup true).startRun hoff hexit
    · exact hs.setStartup true
  | .setStartup false => cases h; exact hs.setStartup false
  | .setAutomatic on => cases h; exact hs.setInputs hs.memory hs.keysLegal s.startup on
  | .setKeys script =>
    obtain ⟨hk, rfl⟩ := operate_setKeys_next h
    exact hs.setInputs hs.memory hk s.startup s.automatic

/-- While Exit = 1 with the clock stopped, turning Startup on is refused (R245). -/
theorem startupOn_of_exit {s : State} (hoff : s.resetSwitch = false) (hrun : s.running = false)
    (hexit : s.exitFlag = true) : startupOn s = .refused .startupWhileExit := by
  have hmode : { s with startup := true }.runMode = .startConflict :=
    runMode_of_startConflict hoff hrun rfl hexit
  simp only [startupOn, hmode]

end Sys2Proof.Machine

open Sys2Proof Sys2Proof.Machine

/-- Settles O33: the nine rows, and the buffer over a sequence by its induction. -/
theorem keyboardTransitionTable : Obligations.KeyboardTransitionTable :=
  ⟨fun b i e => kbdTick_reset b e i, fun b _ e => kbdTick_waitPress_held b e, kbdTick_waitPress_released,
    kbdTick_storeKey_released, fun b _ e => kbdTick_storeKey_held b e, kbdTick_waitRead_read, kbdTick_waitRead_unread,
    kbdTick_waitRelease_released, fun b _ e => kbdTick_waitRelease_held b e, fun _ ins => kbdRun_buffer ins⟩

/-- Settles O34, by the state of the keyboard in step 4: the read signal counts in state 3 only. -/
theorem keyboardReadTakesTheWaitingKey : Obligations.KeyboardReadTakesTheWaitingKey := by
  intro s k hk
  rw [kbdRun_threePeriods] at hk
  rw [keyboardRead_eq, kbdInstr_eq, kbdInstr_eq, hk]
  refine ⟨fun hq => ?waiting, fun hq => ?other⟩
  case waiting =>
    obtain ⟨q, b⟩ := k
    cases hq
    rw [kbdTick_waitRead_read]
    exact ⟨rfl, rfl⟩
  case other =>
    rw [kbdTick_read_of_notWaitRead _ hq]
    exact ⟨kbdTick_noRead_output k _, rfl⟩

/-- Settles O35: the destination holds what the keyboard gave, or is r0. -/
theorem loadedKeyIsZeroOrAKeyCode : Obligations.LoadedKeyIsZeroOrAKeyCode := by
  intro rd rs imm s hs hea
  obtain ⟨l, hload⟩ := exec_ldw_keyboard (rd := rd) hea
  refine ⟨_, hload, ?_⟩
  rw [retire_x_self]
  split
  · exact .inl rfl
  · exact keyboardRead_legal hs

/-- Settles O36: held keys leave state 4 as it is, and a delivery needs the way from state 4 by states 1 and 2 to state 3. -/
theorem nextKeyNeedsReleaseAndTwoEdges : Obligations.NextKeyNeedsReleaseAndTwoEdges := by
  intro ins
  refine ⟨fun hheld => ?held, fun hout => ?delivered⟩
  case held =>
    rw [kbdRun_waitRelease_held 0 hheld]
    exact ⟨rfl, fun _ ho => List.eq_of_mem_replicate ho⟩
  case delivered =>
    obtain ⟨pre, e0, rest, rfl, mid, i1, e1, i2, e2, post, rfl, h1, h2⟩ := released_then_heldAcrossTwoEdges hout
    exact ⟨pre, e0, mid, i1, e1, i2, e2, post, by simp, h1, h2⟩

/-- Settles O37: two edges lead from state 1 to state 3, where the key waits; a release at the second leads back. -/
theorem capturedKeyWaitsUntilRead : Obligations.CapturedKeyWaitsUntilRead := by
  intro b i1 i2 j e1 e2 waiting h1
  refine ⟨fun h2 => ?captured, ?dropped⟩
  case captured =>
    simp only [kbdRun_cons, kbdTick_waitPress_held b e1 h1, kbdTick_storeKey_held b e2 h2, kbdRun_waitRead_unread]
    refine ⟨trivial, fun o ho => ?_, kbdTick_waitRead_read i2 j⟩
    exact List.eq_of_mem_replicate (n := waiting.length + 2) ho
  case dropped =>
    simp only [kbdRun_cons, kbdTick_waitPress_held b e1 h1, kbdTick_storeKey_released, kbdRun_nil]

/-- Settles O38: the two outcomes are the same but for the keyboard, and each clause reads that off for one kind of outcome. -/
theorem keyboardDoesNotMatterUnlessRead : Obligations.KeyboardDoesNotMatterUnlessRead := by
  intro i s k ks hread
  have hsame : SameButKeyboard (exec i s) (exec i { s with kbd := k, keys := ks }) := exec_rekey k ks hread
  refine ⟨fun t ht => ?next, fun f hf => (hf ▸ hsame).of_fault, fun r hr => (hr ▸ hsame).of_refused⟩
  case next =>
    obtain ⟨k', ks', hu⟩ := (ht ▸ hsame).of_next
    exact ⟨rekey t k' ks', hu, rfl⟩

/-- Settles O50. -/
theorem operatorKeepsInv : Obligations.OperatorKeepsInv :=
  fun _ _ _ hs h => operate_keepsInv hs h

/-- Settles O51, by induction on how the state was reached: the reset state is good, and steps and moves keep it so. -/
theorem reachableStatesAreGood : Obligations.ReachableStatesAreGood := by
  intro s hr
  induction hr with
  | reset => exact invHoldsAtReset
  | step _ hstep ih => exact stepKeepsInv _ _ ih hstep
  | operate m _ hmove ih => exact operate_keepsInv ih hmove

/-- Settles O45. -/
theorem stoppedProcessorStaysAsItIs : Obligations.StoppedProcessorStaysAsItIs := by
  intro s hoff hrun hstart
  exact step_of_stopped (by simp [runMode_of_resetOff hoff, hrun, hstart])

/-- Settles O46: `exit` looks at Startup itself, and the other three refusals are modes of the controller. -/
theorem runsOutsideTheModelAreRefused : Obligations.RunsOutsideTheModelAreRefused := by
  intro s hoff
  refine ⟨fun hstart => if_pos hstart, fun hrun hauto => ?disengaged, fun hrun hstart hexit => ?conflict,
    fun hrun hexit => startupOn_of_exit hoff hrun hexit⟩
  case disengaged => exact step_of_disengaged (by simp [runMode_of_resetOff hoff, hrun, hauto])
  case conflict => exact step_of_startConflict (runMode_of_startConflict hoff hrun hstart hexit)

end

section
/-!
The life of a run: what the lights say of the flags and switches, how a pulse of Startup starts a stopped processor, and that
only `exit` clears Running (10_state.md R35, R36; 70_reset_and_hazards.md R242, R243, R254).
-/

namespace Sys2Proof.Machine

/-! ### The lights (R35, R243) -/

/-- A light with two different colours tells its flag. -/
theorem colour_ite_eq_iff {on off : Colour} (hne : on ≠ off) (a b : Bool) :
    (if a then on else off) = (if b then on else off) ↔ a = b := by
  cases a <;> cases b <;> simp [hne, hne.symm]

/-- The five lights tell the five flags and switches (R35). -/
theorem lights_eq_iff (s : State) (exit startup reset running automatic : Bool) :
    s.lights = ⟨if exit then .red else .green, if startup then .yellow else .green, if reset then .red else .green,
      if running then .green else .red, if automatic then .green else .red⟩ ↔
    s.exitFlag = exit ∧ s.startup = startup ∧ s.resetSwitch = reset ∧ s.running = running ∧ s.automatic = automatic := by
  simp only [State.lights, Lights.mk.injEq, colour_ite_eq_iff (on := .red) (off := .green) nofun,
    colour_ite_eq_iff (on := .yellow) (off := .green) nofun, colour_ite_eq_iff (on := .green) (off := .red) nofun]

/-! ### The start of a run (R242) -/

theorem runMode_of_starting {s : State} (hoff : s.resetSwitch = false) (hrun : s.running = false)
    (hstart : s.startup = true) (hexit : s.exitFlag = false) (hauto : s.automatic = true) : s.runMode = .starting := by
  simp [runMode_of_resetOff hoff, hrun, hstart, hexit, hauto]

/-- Where the start is defined, turning Startup on starts the run at once (R242). -/
theorem startupOn_of_ready {s : State} (hoff : s.resetSwitch = false) (hauto : s.automatic = true)
    (hexit : s.exitFlag = false) (hrun : s.running = false) :
    startupOn s = .next (startRun { s with startup := true }) := by
  have hmode : { s with startup := true }.runMode = .starting := runMode_of_starting hoff hrun rfl hexit hauto
  simp only [startupOn, hmode]

/-! ### What clears Running (R112, R254) -/

/-- Of the instructions only `exit` clears Running (R112). -/
theorem exec_stops_iff {i : Instr} {s t : State} (hrun : s.running = true) (h : exec i s = .next t) :
    t.running = false ↔ i = .exit := by
  rcases exec_next h with ⟨hi, -, rfl⟩ | ⟨hi, m, isRead, l, target, d, v, -, rfl⟩
  case inl => simp [hi]
  case inr => simp [hi, hrun]

/-- A clock period leaves Running as it is: the control signals have none that clears it (R249). -/
theorem clockPeriod_running {s t : State} (h : clockPeriod s = .next t) : t.running = s.running := by
  obtain ⟨n, m, -, rfl⟩ := clockPeriod_next h
  exact latchAll_running ..

end Sys2Proof.Machine

open Sys2Proof Sys2Proof.Machine

/-- Settles O44: the five flags and switches are read off the lights, and each move of the cycle changes those it names. -/
theorem runCyclesThroughTheStandardConfigurations : Obligations.RunCyclesThroughTheStandardConfigurations := by
  refine ⟨fun s => ⟨lights_eq_iff s false false false false true, lights_eq_iff s false true false true true,
    lights_eq_iff s false false false true true, lights_eq_iff s true false false false true,
    lights_eq_iff s false false true false true⟩, fun s1 h1 => ?cycle⟩
  obtain ⟨hexit, -, hoff, hrun, hauto⟩ := (lights_eq_iff s1 false false false false true).mp h1
  refine ⟨_, _, _, _, _, startupOn_of_ready hoff hauto hexit hrun, ?startupOn, rfl, ?startupOff,
    exec_exit_of_startupOff rfl, ?ended, rfl, ?resetOn, rfl, ?resetOff⟩
  case startupOn => exact (lights_eq_iff _ false true false true true).mpr ⟨hexit, rfl, hoff, rfl, hauto⟩
  case startupOff => exact (lights_eq_iff _ false false false true true).mpr ⟨hexit, rfl, hoff, rfl, hauto⟩
  case ended => exact (lights_eq_iff _ true false false false true).mpr ⟨rfl, rfl, hoff, rfl, hauto⟩
  case resetOn => exact (lights_eq_iff _ false false true false true).mpr ⟨rfl, rfl, rfl, rfl, hauto⟩
  case resetOff => exact (lights_eq_iff _ false false false false true).mpr ⟨rfl, rfl, rfl, rfl, hauto⟩

/-- Settles O47: at a boundary the step is the fetched instruction, and inside an instruction it is a clock period. -/
theorem onlyExitStopsTheClock : Obligations.OnlyExitStopsTheClock := by
  intro s t he h
  obtain ⟨hoff, hrun, -⟩ := he
  rcases step_next h with ⟨hon, -⟩ | ⟨-, hb, w, hw, hx⟩ | ⟨-, hb, hc⟩ | ⟨-, hstop, -⟩ | ⟨-, hstop, -⟩
  case inr.inl =>
    obtain rfl := fetch_ok hw
    rw [exec_stops_iff hrun hx, and_iff_right hb]
  case inr.inr.inl => simp [clockPeriod_running hc, hrun, hb]
  -- Reset on, or the clock stopped: instructions do not execute
  case inl => cases hoff.symm.trans hon
  case inr.inr.inr.inl => cases hrun.symm.trans hstop
  case inr.inr.inr.inr => cases hrun.symm.trans hstop

/-- Settles O43: the start and the two positions of Startup touch no other field of the state. -/
theorem startupPulseStartsTheProcessor : Obligations.StartupPulseStartsTheProcessor := by
  intro s hoff hauto hexit hrun
  exact ⟨_, _, startupOn_of_ready hoff hauto hexit hrun, ⟨hoff, rfl, hauto⟩, rfl, rfl, ⟨hoff, rfl, hauto⟩, rfl, rfl, hexit,
    rfl, rfl, rfl, rfl⟩

end
